-- ==== Sys2Proof/Word.lean ====
section
/-! DEFINITION. The word types of the block: command and response words, bytes, labels, the encoder's operand. -/

namespace Sys2Proof

/-- A command or response word, `CMD[31:0]`, `RSP[31:0]` (R42, R47; `CMD_BITS` = `RSP_BITS` = 32, R7). -/
abbrev Word := BitVec 32

/-- A byte of the packed store (R18). -/
abbrev Byte := BitVec 8

/-- An 8-bit operand field, a dimension or a parity label (`DIM_BITS` = `LABEL_BITS` = 8, R7). -/
abbrev Field := BitVec 8

/-- The 64-bit operand `WDATA[63:0]` (R43; `VALUE_BITS` = 64, R7). -/
abbrev Value := BitVec 64

end Sys2Proof
end

