-- ==== Sys2Proof/Syntax.lean ====
section
/-! DEFINITION. The syntax of the block's commands: the twelve rows of the opcode table, the three-valued `Tri`, the
fields of a command word and the reasons a word is illegal. -/

namespace Sys2Proof

/-- The three-valued type of a checksum's combined bit (R12). -/
inductive Tri where
  | zero
  | one
  | mismatched
deriving DecidableEq, Repr

/-- The command inductive: one constructor per row of the opcode table (R44). Operands are the fields of R45 as they
stand; RENDER's `value` travels on `WDATA` and is no part of the word (R43). -/
inductive Instr where
  /-- CREATE `w, h` (R61). -/
  | create (w h : Field)
  /-- FREE (R62). -/
  | free
  /-- SIZE (R63). -/
  | size
  /-- GET `c, r` (R64). -/
  | get (c r : Field)
  /-- SET `c, r, v` (R65). -/
  | set (c r : Field) (v : Bool)
  /-- INVERT `c, r` (R66). -/
  | invert (c r : Field)
  /-- CSCOMP (R82). -/
  | csComp
  /-- CSDRAW `lc, lr, b` (R83). -/
  | csDraw (lc lr : Field) (b : Tri)
  /-- CSREAD (R84). -/
  | csRead
  /-- CSREND (R85). -/
  | csRend
  /-- RENDER `size` with `value` on `WDATA` (R93). -/
  | render (size : Field)
  /-- VALIDATE (R108). -/
  | validate
deriving DecidableEq, Repr

/-- The five fields of format `C` (R42). -/
structure CmdFields where
  /-- `CMD[31:28]` -/
  op : BitVec 4
  /-- `CMD[27:20]` -/
  a : Field
  /-- `CMD[19:12]` -/
  b : Field
  /-- `CMD[11:10]` -/
  cf : BitVec 2
  /-- `CMD[9:0]` -/
  z : BitVec 10
deriving DecidableEq, Repr

/-- Why a command word is illegal: the four clauses of R53. -/
inductive IllegalReason where
  /-- R53 (a): `op` is `0x0`, `0xD`, `0xE` or `0xF`. -/
  | reservedOp
  /-- R53 (b): `Z` is not 0. -/
  | reservedBits
  /-- R53 (c): a field that the command does not use is not 0. -/
  | unusedField
  /-- R53 (d): CSDRAW with `Cf = 0b10`. -/
  | reservedTri
deriving DecidableEq, Repr

end Sys2Proof
end

