-- ==== Sys2Proof/WellFormed.lean ====
section
/-! DEFINITION. Well-formedness: the check of R53 on the five fields of a command word, and the fields each command puts
its operands in (R45). A command is well formed when its fields pass the check. The operand types of `Instr` already keep
out what no word can spell (a cell value other than 0 and 1, a `Tri` other than its three values), so the check has
its ill-formed terms among the fields. -/

namespace Sys2Proof

/-- An assigned operation code (R44). -/
def CmdFields.assigned (f : CmdFields) : Bool := decide (1 ≤ f.op.toNat) && decide (f.op.toNat ≤ 12)

/-- The operation uses field `A` (R45). -/
def CmdFields.usesA (f : CmdFields) : Bool := f.op ∈ [0x1#4, 0x4#4, 0x5#4, 0x6#4, 0x8#4, 0xB#4]

/-- The operation uses field `B` (R45). -/
def CmdFields.usesB (f : CmdFields) : Bool := f.op ∈ [0x1#4, 0x4#4, 0x5#4, 0x6#4, 0x8#4]

/-- The bits of `Cf` that the operation uses (R45). -/
def CmdFields.cfUsed (f : CmdFields) : BitVec 2 :=
  if f.op = 0x5#4 then 0b01#2 else if f.op = 0x8#4 then 0b11#2 else 0b00#2

/-- The check of R53: the reason these fields are illegal, or none. The reserved bits are looked at first, as R56 does. -/
def CmdFields.illegal? (f : CmdFields) : Option IllegalReason :=
  if f.z ≠ 0 then some .reservedBits
  else if !f.assigned then some .reservedOp
  else if (!f.usesA && decide (f.a ≠ 0)) || (!f.usesB && decide (f.b ≠ 0)) || decide (f.cf &&& ~~~f.cfUsed ≠ 0) then
    some .unusedField
  else if f.op = 0x8#4 ∧ f.cf = 0b10#2 then some .reservedTri
  else none

/-- The fields of each command (R44, R45, R51). -/
def Instr.fields : Instr → CmdFields
  | .create w h => ⟨0x1, w, h, 0, 0⟩
  | .free => ⟨0x2, 0, 0, 0, 0⟩
  | .size => ⟨0x3, 0, 0, 0, 0⟩
  | .get c r => ⟨0x4, c, r, 0, 0⟩
  | .set c r v => ⟨0x5, c, r, if v then 0b01 else 0b00, 0⟩
  | .invert c r => ⟨0x6, c, r, 0, 0⟩
  | .csComp => ⟨0x7, 0, 0, 0, 0⟩
  | .csDraw lc lr b => ⟨0x8, lc, lr, match b with | .zero => 0b00 | .one => 0b01 | .mismatched => 0b11, 0⟩
  | .csRead => ⟨0x9, 0, 0, 0, 0⟩
  | .csRend => ⟨0xA, 0, 0, 0, 0⟩
  | .render n => ⟨0xB, n, 0, 0, 0⟩
  | .validate => ⟨0xC, 0, 0, 0, 0⟩

/-- A command is well formed when its fields pass the check of R53. -/
def Instr.wellFormed (i : Instr) : Bool := i.fields.illegal? = none

end Sys2Proof
end

