-- ==== Sys2Proof/Decode.lean ====
section
/-! DEFINITION. Decoding a command word, a total function of the word alone (R55, R56), the encoder (R42, R45), the wire
code of `Tri` (R51), and the opcode table's match and mask (R45). -/

namespace Sys2Proof

/-- The wire code of a `Tri` (R51). -/
def Tri.code : Tri → BitVec 2
  | .zero => 0b00
  | .one => 0b01
  | .mismatched => 0b11

/-- The `Tri` of a wire code; `0b10` is reserved (R51). -/
def Tri.ofCode? (c : BitVec 2) : Option Tri :=
  match c.toNat with
  | 0 => some .zero
  | 1 => some .one
  | 3 => some .mismatched
  | _ => none

/-- The fields of a command word (R42). -/
def CmdFields.ofWord (cmd : Word) : CmdFields where
  op := cmd.extractLsb' 28 4
  a := cmd.extractLsb' 20 8
  b := cmd.extractLsb' 12 8
  cf := cmd.extractLsb' 10 2
  z := cmd.extractLsb' 0 10

/-- `DecodeCmd` (R56): the command of a word, or the clause of R53 by which it is illegal. -/
def decode (cmd : Word) : Except IllegalReason Instr :=
  let f := CmdFields.ofWord cmd
  if f.z ≠ 0 then .error .reservedBits
  else
    match f.op.toNat with
    | 0x1 => if f.cf ≠ 0 then .error .unusedField else .ok (.create f.a f.b)
    | 0x2 => if f.a ≠ 0 ∨ f.b ≠ 0 ∨ f.cf ≠ 0 then .error .unusedField else .ok .free
    | 0x3 => if f.a ≠ 0 ∨ f.b ≠ 0 ∨ f.cf ≠ 0 then .error .unusedField else .ok .size
    | 0x4 => if f.cf ≠ 0 then .error .unusedField else .ok (.get f.a f.b)
    | 0x5 => if f.cf.getLsbD 1 then .error .unusedField else .ok (.set f.a f.b (f.cf.getLsbD 0))
    | 0x6 => if f.cf ≠ 0 then .error .unusedField else .ok (.invert f.a f.b)
    | 0x7 => if f.a ≠ 0 ∨ f.b ≠ 0 ∨ f.cf ≠ 0 then .error .unusedField else .ok .csComp
    | 0x8 =>
      match Tri.ofCode? f.cf with
      | some b => .ok (.csDraw f.a f.b b)
      | none => .error .reservedTri
    | 0x9 => if f.a ≠ 0 ∨ f.b ≠ 0 ∨ f.cf ≠ 0 then .error .unusedField else .ok .csRead
    | 0xA => if f.a ≠ 0 ∨ f.b ≠ 0 ∨ f.cf ≠ 0 then .error .unusedField else .ok .csRend
    | 0xB => if f.b ≠ 0 ∨ f.cf ≠ 0 then .error .unusedField else .ok (.render f.a)
    | 0xC => if f.a ≠ 0 ∨ f.b ≠ 0 ∨ f.cf ≠ 0 then .error .unusedField else .ok .validate
    | _ => .error .reservedOp

/-- `CMD = (op << 28) | (A << 20) | (B << 12) | (Cf << 10) | Z` with `Z = 0` (R42). -/
def packCommand (op : BitVec 4) (a b : Field) (cf : BitVec 2) : Word := op ++ a ++ b ++ cf ++ 0#10

/-- The word of a command (R42, R44, R45). -/
def encode : Instr → Word
  | .create w h => packCommand 0x1 w h 0
  | .free => packCommand 0x2 0 0 0
  | .size => packCommand 0x3 0 0 0
  | .get c r => packCommand 0x4 c r 0
  | .set c r v => packCommand 0x5 c r (0#1 ++ BitVec.ofBool v)
  | .invert c r => packCommand 0x6 c r 0
  | .csComp => packCommand 0x7 0 0 0
  | .csDraw lc lr b => packCommand 0x8 lc lr b.code
  | .csRead => packCommand 0x9 0 0 0
  | .csRend => packCommand 0xA 0 0 0
  | .render n => packCommand 0xB n 0 0
  | .validate => packCommand 0xC 0 0 0

/-- The instruction the decoder reads from a table word of `nbits` bits, the bits above `nbits` being 0. Every command is
one 32-bit word (R55): a number that needs more bits is no command. -/
def decodeTableWord (nbits w : Nat) : Option Instr :=
  let word := w % 2 ^ nbits
  if word < 2 ^ 32 then (decode (BitVec.ofNat 32 word)).toOption else none

/-- One row of the opcode map (R44, R45). -/
structure OpcodeRow where
  mnemonic : String
  pattern : Word
  mask : Word
deriving DecidableEq, Repr

/-- The `match` and `mask` columns of R45. -/
def opcodeRows : List OpcodeRow :=
  [⟨"CREATE", 0x10000000, 0xF0000FFF⟩, ⟨"FREE", 0x20000000, 0xFFFFFFFF⟩, ⟨"SIZE", 0x30000000, 0xFFFFFFFF⟩,
   ⟨"GET", 0x40000000, 0xF0000FFF⟩, ⟨"SET", 0x50000000, 0xF0000BFF⟩, ⟨"INVERT", 0x60000000, 0xF0000FFF⟩] ++
  [⟨"CSCOMP", 0x70000000, 0xFFFFFFFF⟩, ⟨"CSDRAW", 0x80000000, 0xF00003FF⟩, ⟨"CSREAD", 0x90000000, 0xFFFFFFFF⟩,
   ⟨"CSREND", 0xA0000000, 0xFFFFFFFF⟩, ⟨"RENDER", 0xB0000000, 0xF00FFFFF⟩, ⟨"VALIDATE", 0xC0000000, 0xFFFFFFFF⟩]

/-- A word selects a row when its bits under the row's mask are the row's pattern (R45). -/
def OpcodeRow.selects (row : OpcodeRow) (w : Word) : Bool := w &&& row.mask = row.pattern

/-- The mnemonic of a command, its row of the opcode map (R44). -/
def Instr.mnemonic : Instr → String
  | .create _ _ => "CREATE"
  | .free => "FREE"
  | .size => "SIZE"
  | .get _ _ => "GET"
  | .set _ _ _ => "SET"
  | .invert _ _ => "INVERT"
  | .csComp => "CSCOMP"
  | .csDraw _ _ _ => "CSDRAW"
  | .csRead => "CSREAD"
  | .csRend => "CSREND"
  | .render _ => "RENDER"
  | .validate => "VALIDATE"

end Sys2Proof
end

