-- ==== Sys2Proof/Machine/Flags.lean ====
section
/-! DEFINITION. The parity computations. The block has no flags (R27); what other machines compute as flags are here the
parity trees, the combined-parity reducer and the one-hot encoder, all combinational (R22). -/

namespace Sys2Proof.Machine

/-- Exclusive-or of a list of bits: one parity tree (R73, R74). -/
def parityOf (bits : List Bool) : Bool := bits.foldr Bool.xor false

/-- `popcount8` (R12). -/
def popcount8 (v : Field) : Nat := (List.range 8).countP fun i => v.getLsbD i

/-- `parity8` (R12). -/
def parity8 (v : Field) : Nat := popcount8 v % 2

/-- `tri` (R12). -/
def tri (b : Bool) : Tri := if b then .one else .zero

/-- `CombinedParity` (R78). -/
def combinedParity (a b : Field) : Tri :=
  let pa := popcount8 a % 2
  let pb := popcount8 b % 2
  if pa ≠ pb then .mismatched
  else if pa = 0 then .zero
  else .one

/-- `onehot_index8` (R12): the index of the set bit when exactly one is set. With no bit set it answers 0, with several the
lowest; no rule uses those answers (R103, U11; log 8). -/
def onehotIndex8 (v : Field) : Nat := ((List.range 8).find? fun i => v.getLsbD i).getD 0

/-- A label whose bit `i` is `f i` for `i < n` and 0 above (R75, R76, R90). -/
def labelOf (n : Nat) (f : Nat → Bool) : Field := BitVec.ofFnLE fun i : Fin 8 => decide (i.val < n) && f i.val

end Sys2Proof.Machine
end

