-- ==== Sys2Proof/Config.lean ====
section
/-! DEFINITION. The parameters of the block (R7). `STORE_BYTES` is left open by the spec: it is a field of the block
(`Machine.Block.storeBytes`, log 1), and here stand its default and its least value. -/

namespace Sys2Proof.Config

/-- `SIZE_MIN`, the least side of the data region (R7). -/
abbrev sizeMin : Nat := 1

/-- `SIZE_MAX`, the greatest side of the data region (R7). -/
abbrev sizeMax : Nat := 8

/-- `N_MIN`, the least side of a barcode image (R7). -/
abbrev barcodeMin : Nat := 2

/-- `N_MAX`, the greatest side of a barcode image (R7). -/
abbrev barcodeMax : Nat := 9

/-- The least legal `STORE_BYTES`, `ceil(81/8)` (R7). -/
abbrev storeBytesMin : Nat := 11

/-- The default of `STORE_BYTES` (R7). -/
abbrev storeBytesDefault : Nat := 11

end Sys2Proof.Config
end

