-- ==== Sys2Proof/Machine/State.lean ====
section
/-! DEFINITION. The state of the machine as plain data: the block's state `S` (R15 to R18), what the host will present to
it and what it has answered, the fault causes, and the state after reset (R25). -/

namespace Sys2Proof.Machine

/-- The packed store as (address, byte) pairs, addresses strictly rising (`Memory.wf`). An address that is not listed
holds no value: the spec gives the store none after reset (R25, R137; log 2). -/
abbrev Memory := List Host.Cell

/-- The fault causes of R120. -/
inductive Cause where
  /-- 1 `ILLEGAL_CMD` (R121). -/
  | illegalCmd
  /-- 2 `NO_IMAGE` (R122). -/
  | noImage
  /-- 3 `BOUNDS` (R123). -/
  | bounds
  /-- 4 `CONSTR_DIM` (R124). -/
  | constrDim
  /-- 5 `CONSTR_SIZE` (R124). -/
  | constrSize
  /-- 6 `CONSTR_VALUE` (R124). -/
  | constrValue
  /-- 7 `CONSTR_SHAPE` (R124). -/
  | constrShape
  /-- 8 `CONSTR_BIT` (R125). -/
  | constrBit
deriving DecidableEq, Repr

/-- The block: the spec's state `S = (valid, W, H, store, fault)` (`10_state.md`) with the parameter `STORE_BYTES` of this
instance (R7: the model takes it as an argument; log 1). -/
structure Block where
  /-- An image exists (R16). -/
  valid : Bool
  /-- `W`, the width of the image in cells (R15). -/
  w : Field
  /-- `H`, the height of the image in cells (R15). -/
  h : Field
  /-- The recorded fault cause, 0 for none (R17). -/
  fault : BitVec 4
  /-- The packed bit store (R18). -/
  store : Memory
  /-- `STORE_BYTES`, never written (R7, log 1). -/
  storeBytes : Nat
deriving DecidableEq, Repr

/-- What the host can present to the block (R8, R137, R148). -/
inductive HostMove where
  /-- One command: the word `CMD` and the operand `WDATA` (R42). -/
  | command (cmd : Word) (wdata : Value)
  /-- The event `Reset` (R137). -/
  | reset
deriving DecidableEq, Repr

/-- The machine: the block and its ports. The host's future moves and the responses it got are lists, so that a run is a run
of one deterministic step (R147; log 3, log 5). -/
structure State where
  /-- The block's own state. -/
  block : Block
  /-- The input `WDATA[63:0]` that accompanies the command being executed (R42, R43; log 4). -/
  wdata : Value
  /-- What the host will still present, oldest first (log 3). -/
  pending : List HostMove
  /-- The responses produced, newest first (R47; log 5). -/
  responses : List Word
deriving DecidableEq, Repr

/-- Why the MODEL stops. The spec's own faults are next states (R126). -/
inductive Fault where
  /-- Raised by GET, SET, INVERT, CSCOMP, CSDRAW, CSREAD, CSREND and VALIDATE when the bytes of the current image do not all lie
  below `STORE_BYTES` and hold a value. R21 (b) and R61 rule it out of every run from reset. Safe: the model stops where the spec
  gives no byte to read (log 2, log 9). -/
  | unreadableStore
deriving DecidableEq, Repr

/-- Why the model gives an instruction no meaning. -/
inductive Refusal where
  /-- Raised by no arm: every command has its meaning. Kept for the interface; safe. -/
  | notModelled (mnemonic : String)
deriving DecidableEq, Repr

/-- The block after power-on reset (R25, R137): no image, no fault, no byte of the store holds a value (log 2). -/
def Block.reset : Block where
  valid := false
  w := 0
  h := 0
  fault := 0
  store := []
  storeBytes := Config.storeBytesDefault

/-- The machine right after reset (R25), with the host about to begin: nothing presented, nothing answered (log 3, log 4, log 5). -/
def State.reset : State where
  block := Block.reset
  wdata := 0
  pending := []
  responses := []

end Sys2Proof.Machine
end

