-- ==== Sys2Proof/Machine/Operands.lean ====
section
/-! DEFINITION. The operand checks of the commands and the response word: how operands are read from their fields and how
results are put into theirs. -/

namespace Sys2Proof.Machine

/-- The numeric code of a cause (R120). -/
def Cause.code : Cause → BitVec 4
  | .illegalCmd => 1
  | .noImage => 2
  | .bounds => 3
  | .constrDim => 4
  | .constrSize => 5
  | .constrValue => 6
  | .constrShape => 7
  | .constrBit => 8

/-- `RSP = (status << 28) | (RA << 20) | (RB << 12) | (RC << 10)` (R47). -/
def packResponse (status : BitVec 4) (ra rb : Field) (rc : BitVec 2) : Word := status ++ ra ++ rb ++ rc ++ 0#10

/-- An OK response (R48, R49). -/
def okResponse (ra rb : Field) (rc : BitVec 2) : Word := packResponse 0 ra rb rc

/-- The ALLOC_ERR response, payload 0 (R48, R50). -/
def allocErrResponse : Word := packResponse 1 0 0 0

/-- A FAULT response: the value of the fault register in `RA[3:0]` (R48, R50). -/
def faultResponse (fault : BitVec 4) : Word := packResponse 2 (fault.setWidth 8) 0 0

/-- `RSP[31:28]` (R47). -/
def rspStatus (rsp : Word) : BitVec 4 := rsp.extractLsb' 28 4

/-- `RSP[27:20]` (R47). -/
def rspRA (rsp : Word) : Field := rsp.extractLsb' 20 8

/-- `RSP[19:12]` (R47). -/
def rspRB (rsp : Word) : Field := rsp.extractLsb' 12 8

/-- `RSP[11:10]` (R47). -/
def rspRC (rsp : Word) : BitVec 2 := rsp.extractLsb' 10 2

/-- `RSP[9:0]`, always 0 (R47). -/
def rspLow (rsp : Word) : BitVec 10 := rsp.extractLsb' 0 10

/-- The bounds contract of GET, SET and INVERT on the full 8-bit operands (R33, R64, R123). -/
def inBounds (b : Block) (c r : Field) : Bool := decide (c < b.w) && decide (r < b.h)

/-- `RC = {0, v}` (R49). -/
def cellResult (v : Bool) : BitVec 2 := 0#1 ++ BitVec.ofBool v

/-- RENDER's side precondition (R91). -/
def sideLegal (size : Field) : Bool := decide (Config.sizeMin ≤ size.toNat) && decide (size.toNat ≤ Config.sizeMax)

/-- RENDER's value precondition: the bits at and above `size*size` are 0; no check for `size = 8` (R92, U5). -/
def valueFits (size : Field) (value : Value) : Bool :=
  decide (size.toNat = Config.sizeMax) || decide (value >>> (size.toNat * size.toNat) = 0)

end Sys2Proof.Machine
end

