-- ==== Sys2Proof/Machine/Ops.lean ====
section
/-! DEFINITION. The shared operations: the packed store and its cells, ending a command, taking a fault and leaving it, and
the checks every command makes before its own rule. -/

namespace Sys2Proof.Machine

/-! ## The store -/

/-- `MemRead(addr, 1)` (R11): the byte held at an address, none where nothing has been written (log 2). -/
def Memory.read? : Memory → Nat → Option Byte
  | [], _ => none
  | (k, v) :: m, a => if k = a then some v else Memory.read? m a

/-- `MemWrite(addr, 1, v)` (R11), keeping the addresses strictly rising. -/
def Memory.write : Memory → Nat → Byte → Memory
  | [], a, v => [(a, v)]
  | (k, x) :: m, a, v =>
    if a < k then (a, v) :: (k, x) :: m
    else if a = k then (a, v) :: m
    else (k, x) :: Memory.write m a v

/-- `for k in 0 .. n-1: MemWrite(k, 1, 0x00)` (R61, R93). -/
def Memory.clear : Memory → Nat → Memory
  | m, 0 => m
  | m, n + 1 => (Memory.clear m n).write n 0

/-- The canonical form: addresses strictly rising. An unlisted address holds no value, so no entry can equal it. -/
abbrev Memory.wf (m : Memory) : Prop := m.Pairwise fun x y => x.1 < y.1

/-- The bytes that a `w × h` image uses, `ceil(w*h/8)`, computed without wrap-around (R30, R61). -/
def bytesFor (w h : Nat) : Nat := (w * h + 7) / 8

namespace Block

/-- The bytes the current image uses (R30). -/
def usedBytes (b : Block) : Nat := bytesFor b.w.toNat b.h.toNat

/-- Every byte of the current image exists and holds a value. True whenever an image exists in a run from reset (R21 (b), R61). -/
abbrev Readable (b : Block) : Prop :=
  b.usedBytes ≤ b.storeBytes ∧ ∀ k < b.usedBytes, (Memory.read? b.store k).isSome = true

/-- `Idx(c, r) = r * W + c` (R29). -/
def idx (b : Block) (c r : Nat) : Nat := r * b.w.toNat + c

/-- The byte that holds a cell (R30). -/
def byteAddr (b : Block) (c r : Nat) : Nat := b.idx c r / 8

/-- The byte at an address. The commands that read a byte make sure first that it holds a value (`Readable`); the 0 given for
one that does not is never looked at (log 2). -/
def memRead (b : Block) (a : Nat) : Byte := (Memory.read? b.store a).getD 0

/-- `CellRead` (R31). -/
def cellRead (b : Block) (c r : Nat) : Bool := (b.memRead (b.byteAddr c r)).getLsbD (b.idx c r % 8)

/-- One byte with bit `k` replaced: `(old & ~(1 << k)) | (v << k)` (R32). -/
def putBit (old : Byte) (k : Nat) (v : Bool) : Byte := (old &&& ~~~(1#8 <<< k)) ||| ((BitVec.ofBool v).setWidth 8 <<< k)

/-- `CellWrite` (R32). -/
def cellWrite (b : Block) (c r : Nat) (v : Bool) : Block :=
  { b with store := b.store.write (b.byteAddr c r) (putBit (b.memRead (b.byteAddr c r)) (b.idx c r % 8) v) }

/-- `CellWrite(c, r, 1 - CellRead(c, r))` (R66, R107). -/
def cellInvert (b : Block) (c r : Nat) : Block := b.cellWrite c r (!b.cellRead c r)

/-- The state of the block when CREATE has begun a `w × h` image (R61, R93). -/
def newImage (b : Block) (w h : Field) : Block :=
  { b with valid := true, w := w, h := h, store := b.store.clear (bytesFor w.toNat h.toNat) }

/-- The image does not fit the store (R61, R128). -/
def tooLarge (b : Block) (w h : Nat) : Bool := decide (b.storeBytes < bytesFor w h)

/-- `IsBarcode` (R20). -/
abbrev IsBarcode (b : Block) : Prop :=
  b.valid = true ∧ b.w = b.h ∧ Config.barcodeMin ≤ b.w.toNat ∧ b.w.toNat ≤ Config.barcodeMax

/-- `size = W - 1`, the side of the data region and the index of the border (R20). -/
def size (b : Block) : Nat := b.w.toNat - 1

end Block

/-! ## Ending a command -/

/-- `respond` (R11): the command is complete, with this state of the block and this response. -/
def respond (s : State) (b : Block) (rsp : Word) : Host.Outcome State Fault Refusal :=
  .next { s with block := b, responses := rsp :: s.responses }

/-- `return ALLOC_ERR` (R128): no state changes. -/
def allocErr (s : State) : Host.Outcome State Fault Refusal := respond s s.block allocErrResponse

/-! ## Taking a fault, and leaving it -/

/-- `raise Fault(cause)` (R126): the block as it was before the command, with the cause recorded, and the FAULT response.
Nothing else is saved and control goes nowhere. -/
def raise (s : State) (cause : Cause) : Host.Outcome State Fault Refusal :=
  respond s { s.block with fault := cause.code } (faultResponse cause.code)

/-- The answer of a faulted block to any command: the recorded cause, no state change (R127). -/
def answerFaulted (s : State) : Host.Outcome State Fault Refusal := respond s s.block (faultResponse s.block.fault)

/-- Reset, the only way out of a fault (R133, R137): no image, no fault, no byte of the store keeps a value that a later
command could see (R25, R138; log 2). The parameter `STORE_BYTES` is no state and stays. -/
def Block.afterReset (b : Block) : Block :=
  { b with valid := false, w := 0, h := 0, fault := 0, store := [] }

/-- The host's move `Reset`: no response (R137; log 6). -/
def resetMove (rest : List HostMove) (s : State) : Host.Outcome State Fault Refusal :=
  .next { s with block := s.block.afterReset, pending := rest }

/-- With nothing presented the block keeps its state (R60, R147, R148; log 3). -/
def idle (s : State) : Host.Outcome State Fault Refusal := .next s

/-- The state in which a presented command is executed: taken from the host, its operand on `WDATA` (R42, R60). -/
def accept (wdata : Value) (rest : List HostMove) (s : State) : State := { s with wdata := wdata, pending := rest }

/-! ## The common checks, in the order of R59 and R129 -/

/-- Check 1: a recorded fault answers for every command (R127; log 7). -/
def unlessFaulted (s : State) (k : Host.Outcome State Fault Refusal) : Host.Outcome State Fault Refusal :=
  if s.block.fault ≠ 0 then answerFaulted s else k

/-- Check 3: a command that needs an image (R122). -/
def withImage (s : State) (k : Host.Outcome State Fault Refusal) : Host.Outcome State Fault Refusal :=
  unlessFaulted s (if s.block.valid then k else raise s .noImage)

/-- The model's own check before a command reaches cells: the image's bytes exist and hold values (log 2, log 9). -/
def withCells (s : State) (k : Host.Outcome State Fault Refusal) : Host.Outcome State Fault Refusal :=
  if s.block.Readable then k else .fault .unreadableStore

/-- The coordinates of GET, SET and INVERT: bounds first, then the cells (R64, R123). -/
def atCell (s : State) (c r : Field) (k : Host.Outcome State Fault Refusal) : Host.Outcome State Fault Refusal :=
  withImage s (if inBounds s.block c r then withCells s k else raise s .bounds)

/-- The shape precondition of the codec and the validator (R81, R124). -/
def withBarcode (s : State) (k : Host.Outcome State Fault Refusal) : Host.Outcome State Fault Refusal :=
  withImage s (if s.block.IsBarcode then k else raise s .constrShape)

/-- Check 2, on a word that is no command: `Fault(ILLEGAL_CMD)` unless a fault is recorded (R59, R121, R127). -/
def illegalCommand (s : State) : Host.Outcome State Fault Refusal := unlessFaulted s (raise s .illegalCmd)

end Sys2Proof.Machine
end

