-- ==== Sys2Proof/Machine/BitImage.lean ====
section
/-! DEFINITION. The BitImage family: CREATE, FREE, SIZE, GET, SET, INVERT (`40_bitimage.md`). -/

namespace Sys2Proof.Machine

/-- CREATE `w, h` (R61). -/
def execCreate (w h : Field) (s : State) : Host.Outcome State Fault Refusal :=
  unlessFaulted s
    (if w = 0 ∨ h = 0 then raise s .constrDim
     else if s.block.tooLarge w.toNat h.toNat then allocErr s
     else respond s (s.block.newImage w h) (okResponse 0 0 0))

/-- FREE (R62). -/
def execFree (s : State) : Host.Outcome State Fault Refusal :=
  withImage s (respond s { s.block with valid := false, w := 0, h := 0 } (okResponse 0 0 0))

/-- SIZE (R63). -/
def execSize (s : State) : Host.Outcome State Fault Refusal :=
  withImage s (respond s s.block (okResponse s.block.w s.block.h 0))

/-- GET `c, r` (R64). -/
def execGet (c r : Field) (s : State) : Host.Outcome State Fault Refusal :=
  atCell s c r (respond s s.block (okResponse 0 0 (cellResult (s.block.cellRead c.toNat r.toNat))))

/-- SET `c, r, v` (R65). -/
def execSet (c r : Field) (v : Bool) (s : State) : Host.Outcome State Fault Refusal :=
  atCell s c r (respond s (s.block.cellWrite c.toNat r.toNat v) (okResponse 0 0 0))

/-- INVERT `c, r` (R66). -/
def execInvert (c r : Field) (s : State) : Host.Outcome State Fault Refusal :=
  atCell s c r (respond s (s.block.cellInvert c.toNat r.toNat) (okResponse 0 0 0))

end Sys2Proof.Machine
end

