-- ==== Sys2Proof/Machine/Checksum.lean ====
section
/-! DEFINITION. The parity generators, the border paths and the checksum family: CSCOMP, CSDRAW, CSREAD, CSREND
(`41_checksum.md`). `lc` is the label stored in the checksum column, `lr` the one in the checksum row
(`00_scope.md` section 6, `90_conflicts.md` C1). -/

namespace Sys2Proof.Machine

/-- A checksum triple `(LC, LR, bit)` (R77, R80). -/
structure Checksum where
  lc : Field
  lr : Field
  bit : Tri
deriving DecidableEq, Repr

namespace Block

/-- `RowPar(i)` (R73). -/
def rowPar (b : Block) (i : Nat) : Bool := parityOf ((List.range b.size).map fun j => b.cellRead j i)

/-- `ColPar(i)` (R74). -/
def colPar (b : Block) (i : Nat) : Bool := parityOf ((List.range b.size).map fun j => b.cellRead i j)

/-- `ComputeChecksum`, the expected checksum (R75, R76, R77). -/
def computeChecksum (b : Block) : Checksum :=
  let lc := labelOf b.size b.rowPar
  let lr := labelOf b.size b.colPar
  ⟨lc, lr, combinedParity lc lr⟩

/-- One turn of the drawing loop: the cells of index `i` (R79). -/
def drawPair (b : Block) (n : Nat) (lc lr : Field) (i : Nat) : Block :=
  (b.cellWrite n i (lc.getLsbD i)).cellWrite i n (lr.getLsbD i)

/-- `DrawChecksum` (R79). -/
def drawChecksum (b : Block) (lc lr : Field) (bit : Bool) : Block :=
  ((List.range b.size).foldl (fun b' i => b'.drawPair b.size lc lr i) b).cellWrite b.size b.size bit

/-- `ReadChecksum`, the observed checksum (R80). -/
def readChecksum (b : Block) : Checksum :=
  ⟨labelOf b.size fun i => b.cellRead b.size i, labelOf b.size fun i => b.cellRead i b.size,
   tri (b.cellRead b.size b.size)⟩

/-- Draw a checksum triple whose bit is a cell value (R79, R85, R93). -/
def drawTriple (b : Block) (cs : Checksum) : Block := b.drawChecksum cs.lc cs.lr (cs.bit.code.getLsbD 0)

/-- One parity tree of R89: eight inputs, input `j` gated by `i < size ∧ j < size`. -/
def gatedTree (n i : Nat) (cell : Nat → Bool) : Bool :=
  parityOf ((List.range 8).map fun j => decide (i < n) && decide (j < n) && cell j)

/-- The sixteen gated trees and the two reducers of R89, as the hardware computes the expected checksum. -/
def parityTrees (b : Block) : Checksum :=
  let lc : Field := BitVec.ofFnLE fun i : Fin 8 => gatedTree b.size i.val fun j => b.cellRead j i.val
  let lr : Field := BitVec.ofFnLE fun i : Fin 8 => gatedTree b.size i.val fun j => b.cellRead i.val j
  let pc := parityOf ((List.range 8).map fun i => lc.getLsbD i)
  let pr := parityOf ((List.range 8).map fun i => lr.getLsbD i)
  ⟨lc, lr, if pc ≠ pr then .mismatched else tri pc⟩

end Block

/-- The response that carries a checksum (R49). -/
def checksumResponse (cs : Checksum) : Word := okResponse cs.lc cs.lr cs.bit.code

/-- CSCOMP (R82). -/
def execCsComp (s : State) : Host.Outcome State Fault Refusal :=
  withBarcode s (withCells s (respond s s.block (checksumResponse s.block.computeChecksum)))

/-- CSDRAW `lc, lr, b` (R83). -/
def execCsDraw (lc lr : Field) (b : Tri) (s : State) : Host.Outcome State Fault Refusal :=
  withBarcode s
    (if b = .mismatched then raise s .constrBit
     else withCells s (respond s (s.block.drawChecksum lc lr (b.code.getLsbD 0)) (okResponse 0 0 0)))

/-- CSREAD (R84). -/
def execCsRead (s : State) : Host.Outcome State Fault Refusal :=
  withBarcode s (withCells s (respond s s.block (checksumResponse s.block.readChecksum)))

/-- CSREND (R85); its `CONSTR_BIT` arm is there for completeness and unreachable (R86). -/
def execCsRend (s : State) : Host.Outcome State Fault Refusal :=
  withBarcode s
    (withCells s
      (if s.block.computeChecksum.bit = .mismatched then raise s .constrBit
       else respond s (s.block.drawTriple s.block.computeChecksum) (okResponse 0 0 0)))

end Sys2Proof.Machine
end

