-- ==== Sys2Proof/Machine/Encoder.lean ====
section
/-! DEFINITION. The encoder: RENDER and the function `Decode` of an image (`42_encoder.md`). -/

namespace Sys2Proof.Machine

namespace Block

/-- The fill of the data region, bit `i` of the value at cell `(i mod n, i div n)` (R35, R93). -/
def fillData (b : Block) (n : Nat) (value : Value) : Block :=
  (List.range (n * n)).foldl (fun b' i => b'.cellWrite (i % n) (i / n) (value.getLsbD i)) b

/-- The block after a RENDER that completes: new image, data, border (R93). -/
def rendered (b : Block) (size : Field) (value : Value) : Block :=
  let data := (b.newImage (size + 1) (size + 1)).fillData size.toNat value
  data.drawTriple data.computeChecksum

/-- `Decode(S)`: the integer in the data region (R94). -/
def decodeValue (b : Block) : Value :=
  BitVec.ofFnLE fun i : Fin 64 => decide (i.val < b.size * b.size) && b.cellRead (i.val % b.size) (i.val / b.size)

end Block

/-- RENDER `size, value` with `value` on `WDATA` (R93). -/
def execRender (size : Field) (s : State) : Host.Outcome State Fault Refusal :=
  unlessFaulted s
    (if !sideLegal size then raise s .constrSize
     else if !valueFits size s.wdata then raise s .constrValue
     else if s.block.tooLarge (size.toNat + 1) (size.toNat + 1) then allocErr s
     else respond s (s.block.rendered size s.wdata) (okResponse 0 0 0))

end Sys2Proof.Machine
end

