-- ==== Sys2Proof/Machine/Validator.lean ====
section
/-! DEFINITION. The validator: syndrome, address mapper, bit-flipper, and VALIDATE (`43_validator.md`). -/

namespace Sys2Proof.Machine

/-- The outcome of a validation (R100); `corrected` carries the column and row of the inverted cell (R117). -/
inductive Verdict where
  | valid
  | corrected (c r : Nat)
  | uncorrectable
deriving DecidableEq, Repr

/-- The wire code of an outcome (R52). -/
def Verdict.code : Verdict → BitVec 2
  | .valid => 0b00
  | .corrected _ _ => 0b01
  | .uncorrectable => 0b10

/-- The decision table, rows T1 to T4, first match wins (R106): the cell to invert, `(column, row)`. `fC` is a row
index and `fR` a column index (R103). -/
def correctionTarget (size : Nat) (cErr rErr : Field) (bitMatches : Bool) : Option (Nat × Nat) :=
  let cCnt := popcount8 cErr
  let rCnt := popcount8 rErr
  let fC := onehotIndex8 cErr
  let fR := onehotIndex8 rErr
  if cCnt = 1 ∧ rCnt = 1 ∧ bitMatches = true then some (fR, fC)
  else if cCnt = 1 ∧ rCnt = 0 ∧ bitMatches = false then some (size, fC)
  else if cCnt = 0 ∧ rCnt = 1 ∧ bitMatches = false then some (fR, size)
  else if cCnt = 0 ∧ rCnt = 0 ∧ bitMatches = false then some (size, size)
  else none

namespace Block

/-- `ref = CombinedParity(oLC, oLR)`, from the observed labels (R104). -/
def referenceBit (b : Block) : Tri := combinedParity b.readChecksum.lc b.readChecksum.lr

/-- `bitMatches`, as values of `Tri` (R105). -/
def bitMatches (b : Block) : Bool := decide (b.readChecksum.bit = b.referenceBit)

/-- `cErr`, the syndrome of the label in the checksum column (R102). -/
def cErr (b : Block) : Field := b.readChecksum.lc ^^^ b.computeChecksum.lc

/-- `rErr`, the syndrome of the label in the checksum row (R102). -/
def rErr (b : Block) : Field := b.readChecksum.lr ^^^ b.computeChecksum.lr

/-- Steps 1 to 5 of the algorithm (R101 to R106). -/
def diagnose (b : Block) : Verdict :=
  if b.readChecksum = b.computeChecksum then .valid
  else
    match correctionTarget b.size b.cErr b.rErr b.bitMatches with
    | some (c, r) => .corrected c r
    | none => .uncorrectable

/-- The bit-flipper: at most one cell, and only on a correction (R107). -/
def flip (b : Block) : Verdict → Block
  | .valid => b
  | .corrected c r => b.cellInvert c r
  | .uncorrectable => b

end Block

/-- The response to VALIDATE: the outcome, and the address of the inverted cell (R49, R52, R117). -/
def verdictResponse : Verdict → Word
  | .valid => okResponse 0 0 (Verdict.code .valid)
  | .corrected c r => okResponse (BitVec.ofNat 8 c) (BitVec.ofNat 8 r) (Verdict.code (.corrected c r))
  | .uncorrectable => okResponse 0 0 (Verdict.code .uncorrectable)

/-- VALIDATE (R108). -/
def execValidate (s : State) : Host.Outcome State Fault Refusal :=
  withBarcode s
    (withCells s (respond s (s.block.flip s.block.diagnose) (verdictResponse s.block.diagnose)))

end Sys2Proof.Machine
end

