-- ==== Sys2Proof/Machine/Dispatch.lean ====
section
/-! DEFINITION. One arm per command. -/

namespace Sys2Proof.Machine

def exec (i : Instr) (s : State) : Host.Outcome State Fault Refusal :=
  match i with
  | .create w h => Sys2Proof.Machine.execCreate w h s
  | .free => Sys2Proof.Machine.execFree s
  | .size => Sys2Proof.Machine.execSize s
  | .get c r => Sys2Proof.Machine.execGet c r s
  | .set c r v => Sys2Proof.Machine.execSet c r v s
  | .invert c r => Sys2Proof.Machine.execInvert c r s
  | .csComp => Sys2Proof.Machine.execCsComp s
  | .csDraw lc lr b => Sys2Proof.Machine.execCsDraw lc lr b s
  | .csRead => Sys2Proof.Machine.execCsRead s
  | .csRend => Sys2Proof.Machine.execCsRend s
  | .render n => Sys2Proof.Machine.execRender n s
  | .validate => Sys2Proof.Machine.execValidate s

end Sys2Proof.Machine
end

