-- ==== Sys2Proof/Machine/Step.lean ====
section
/-! DEFINITION. The step: the block takes the oldest move of the host (R59, R137). -/

namespace Sys2Proof.Machine

/-- One step: idle with nothing presented, a reset, or one command executed to completion (R8, R59). The check for a
recorded fault stands first in every meaning and in `illegalCommand` (log 7). -/
def step (s : State) : Host.Outcome State Fault Refusal :=
  match s.pending with
  | [] => idle s
  | .reset :: rest => resetMove rest s
  | .command cmd wdata :: rest =>
    match decode cmd with
    | .ok i => exec i (accept wdata rest s)
    | .error _ => illegalCommand (accept wdata rest s)

/-- The state in which the host presents this command word next, with the operand that stands on `WDATA` (log 3, log 13). -/
def State.withFetchWord (s : State) (nbits w : Nat) : State :=
  { s with pending := .command (BitVec.ofNat 32 (w % 2 ^ nbits)) s.wdata :: s.pending }

end Sys2Proof.Machine
end

