-- ==== Sys2Proof/Machine/Text.lean ====
section
/-! DEFINITION. The textual form of commands and responses (R57). There are no pseudo-instructions: a line is one command
word or none (R58). Text is a list of characters. What the rule leaves open (white space, WDATA of the commands that ignore
it, how response fields are printed) is log 10. -/

namespace Sys2Proof.Machine.Text

/-- Why a line is no command. -/
inductive TextError where
  | unknownMnemonic
  | badNumber
  | badOperands
deriving DecidableEq, Repr

/-- A command as it is sent: the word and the operand beside it (R42). -/
structure Command where
  cmd : Word
  wdata : Value
deriving DecidableEq, Repr

/-- An operand as written: a number, or `M` for `Mismatched` (R57). -/
inductive Operand where
  | num (n : Nat)
  | mismatched
deriving DecidableEq, Repr

def isSpace (c : Char) : Bool := c == ' ' || c == '\t' || c == '\r' || c == '\n'

/-- The value of a digit in a base up to 16. -/
def digit? (base : Nat) (c : Char) : Option Nat :=
  let v :=
    if '0' ≤ c ∧ c ≤ '9' then some (c.toNat - '0'.toNat)
    else if 'a' ≤ c ∧ c ≤ 'f' then some (c.toNat - 'a'.toNat + 10)
    else if 'A' ≤ c ∧ c ≤ 'F' then some (c.toNat - 'A'.toNat + 10)
    else none
  v.filter (· < base)

/-- The number written by these digits, most significant first. -/
def digits? (base : Nat) : List Char → Nat → Option Nat
  | [], acc => some acc
  | c :: cs, acc => (digit? base c).bind fun d => digits? base cs (acc * base + d)

/-- Numbers in decimal, `0x` hexadecimal or `0b` binary (R57). -/
def number? : List Char → Option Nat
  | [] => none
  | '0' :: 'x' :: c :: cs => digits? 16 (c :: cs) 0
  | '0' :: 'b' :: c :: cs => digits? 2 (c :: cs) 0
  | c :: cs => digits? 10 (c :: cs) 0

def operand? (cs : List Char) : Option Operand :=
  if cs = ['M'] then some .mismatched else (number? cs).map .num

def trim (cs : List Char) : List Char := ((cs.dropWhile isSpace).reverse.dropWhile isSpace).reverse

/-- Cut at every comma. -/
def splitCommas : List Char → List (List Char)
  | [] => [[]]
  | c :: cs =>
    if c = ',' then [] :: splitCommas cs
    else
      match splitCommas cs with
      | [] => [[c]]
      | part :: parts => (c :: part) :: parts

/-- An operand that must fit an 8-bit field. -/
def field? (n : Nat) : Option Field := if n < 2 ^ 8 then some (BitVec.ofNat 8 n) else none

/-- The command of a mnemonic and its operands, with WDATA 0 for the commands that ignore it (R57). -/
def assemble (mnemonic : List Char) (ops : List Operand) : Except TextError Command :=
  let plain (i : Instr) : Except TextError Command :=
    if ops = [] then .ok ⟨encode i, 0⟩ else .error .badOperands
  let pair (mk : Field → Field → Instr) : Except TextError Command :=
    match ops with
    | [.num a, .num b] =>
      match field? a, field? b with
      | some a, some b => .ok ⟨encode (mk a b), 0⟩
      | _, _ => .error .badOperands
    | _ => .error .badOperands
  if mnemonic = "CREATE".toList then pair .create
  else if mnemonic = "FREE".toList then plain .free
  else if mnemonic = "SIZE".toList then plain .size
  else if mnemonic = "GET".toList then pair .get
  else if mnemonic = "SET".toList then
    match ops with
    | [.num c, .num r, .num v] =>
      match field? c, field? r with
      | some c, some r => if v < 2 then .ok ⟨encode (.set c r (v == 1)), 0⟩ else .error .badOperands
      | _, _ => .error .badOperands
    | _ => .error .badOperands
  else if mnemonic = "INVERT".toList then pair .invert
  else if mnemonic = "CSCOMP".toList then plain .csComp
  else if mnemonic = "CSDRAW".toList then
    match ops with
    | [.num lc, .num lr, b] =>
      match field? lc, field? lr, b with
      | some lc, some lr, .num 0 => .ok ⟨encode (.csDraw lc lr .zero), 0⟩
      | some lc, some lr, .num 1 => .ok ⟨encode (.csDraw lc lr .one), 0⟩
      | some lc, some lr, .mismatched => .ok ⟨encode (.csDraw lc lr .mismatched), 0⟩
      | _, _, _ => .error .badOperands
    | _ => .error .badOperands
  else if mnemonic = "CSREAD".toList then plain .csRead
  else if mnemonic = "CSREND".toList then plain .csRend
  else if mnemonic = "RENDER".toList then
    match ops with
    | [.num n, .num value] =>
      match field? n with
      | some n => if value < 2 ^ 64 then .ok ⟨encode (.render n), BitVec.ofNat 64 value⟩ else .error .badOperands
      | none => .error .badOperands
    | _ => .error .badOperands
  else if mnemonic = "VALIDATE".toList then plain .validate
  else .error .unknownMnemonic

/-- One line: a command, or none where it holds a comment or nothing (R57). -/
def parseLine (line : List Char) : Except TextError (Option Command) :=
  let text := trim (line.takeWhile (· ≠ ';'))
  let mnemonic := text.takeWhile fun c => !isSpace c
  let rest := trim (text.dropWhile fun c => !isSpace c)
  if text = [] then .ok none
  else
    let operands := if rest = [] then some [] else (splitCommas rest).mapM fun cs => operand? (trim cs)
    match operands with
    | none => .error .badNumber
    | some ops => (assemble mnemonic ops).map some

/-- A program: the host's moves in the order of the lines, or the first line's error (R57, R58). -/
def parseProgram : List (List Char) → Except TextError (List HostMove)
  | [] => .ok []
  | line :: lines =>
    match parseLine line, parseProgram lines with
    | .error e, _ => .error e
    | .ok _, .error e => .error e
    | .ok none, .ok moves => .ok moves
    | .ok (some c), .ok moves => .ok (.command c.cmd c.wdata :: moves)

/-- The name of a recorded cause (R120). -/
def causeName? (code : Nat) : Option (List Char) :=
  match code with
  | 1 => some "ILLEGAL_CMD".toList
  | 2 => some "NO_IMAGE".toList
  | 3 => some "BOUNDS".toList
  | 4 => some "CONSTR_DIM".toList
  | 5 => some "CONSTR_SIZE".toList
  | 6 => some "CONSTR_VALUE".toList
  | 7 => some "CONSTR_SHAPE".toList
  | 8 => some "CONSTR_BIT".toList
  | _ => none

/-- A response as written (R57); none for a word the block never produces (R48, U13). -/
def showResponse (rsp : Word) : Option (List Char) :=
  match (rspStatus rsp).toNat with
  | 0 =>
    if rsp = 0 then some "OK".toList
    else
      some ("OK RA=".toList ++ Nat.toDigits 10 (rspRA rsp).toNat ++ " RB=".toList ++ Nat.toDigits 10 (rspRB rsp).toNat ++
        " RC=".toList ++ [if (rspRC rsp).getLsbD 1 then '1' else '0', if (rspRC rsp).getLsbD 0 then '1' else '0'])
  | 1 => some "ALLOC_ERR".toList
  | 2 => (causeName? (rspRA rsp).toNat).map fun name => "FAULT ".toList ++ name
  | _ => none

end Sys2Proof.Machine.Text
end

