-- ==== Sys2Proof/Safety.lean ====
section
/-! DEFINITION. The terms in which claims are stated: the invariants of R21, when a command may proceed, the state a command
leaves, what the host sees of the block, and when a run has gone wrong (R147). -/

namespace Sys2Proof

/-- The commands that need an image: every one except CREATE and RENDER (R59, R122). -/
def Instr.needsImage : Instr → Bool
  | .create _ _ => false
  | .render _ => false
  | .free | .size | .get _ _ | .set _ _ _ | .invert _ _ => true
  | .csComp | .csDraw _ _ _ | .csRead | .csRend | .validate => true

/-- The commands that need a barcode image (R81, R108). -/
def Instr.needsBarcode : Instr → Bool
  | .csComp | .csDraw _ _ _ | .csRead | .csRend | .validate => true
  | .create _ _ | .free | .size | .get _ _ | .set _ _ _ | .invert _ _ | .render _ => false

namespace Machine

/-- `RSP = (status << 28) | (RA << 20) | (RB << 12) | (RC << 10)`, the formula of R47 on numbers. -/
def rspWord (status ra rb rc : Nat) : Word :=
  BitVec.ofNat 32 (status <<< 28 ||| ra <<< 20 ||| rb <<< 12 ||| rc <<< 10)

/-- The machine after a command: this block, one more response, everything else as it was. -/
def answered (s : State) (b : Block) (rsp : Word) : State := { s with block := b, responses := rsp :: s.responses }

/-- The block with a cause recorded and nothing else changed (R126). -/
def Block.withFault (b : Block) (code : BitVec 4) : Block := { b with fault := code }

/-- The invariants of R21, the parameter's bound (R7), and those of the store that R61 and R93 give: its canonical form, its
addresses, and a value in every byte of an image. -/
structure Block.Inv (b : Block) : Prop where
  /-- R21 (a). -/
  noImage : b.valid = false → b.w = 0 ∧ b.h = 0
  /-- R21 (b). -/
  image : b.valid = true → 1 ≤ b.w.toNat ∧ 1 ≤ b.h.toNat ∧ (b.w.toNat * b.h.toNat + 7) / 8 ≤ b.storeBytes
  /-- R21 (c). -/
  cause : b.fault.toNat ≤ 8
  /-- R7. -/
  parameter : Config.storeBytesMin ≤ b.storeBytes
  /-- Addresses strictly rising. -/
  canonical : Memory.wf b.store
  /-- Every listed address is below `STORE_BYTES` (R18). -/
  addresses : ∀ x ∈ b.store, x.1 < b.storeBytes
  /-- Every byte of the image holds a value (R61, R93). -/
  held : b.valid = true → ∀ k < (b.w.toNat * b.h.toNat + 7) / 8, (Memory.read? b.store k).isSome = true

/-- The pad bits of the last used byte are 0 while an image exists (U10). -/
def Block.PadZero (b : Block) : Prop :=
  b.valid = true → ∀ i, b.w.toNat * b.h.toNat ≤ i → i < 8 * ((b.w.toNat * b.h.toNat + 7) / 8) →
    (b.memRead (i / 8)).getLsbD (i % 8) = false

/-- A command that needs an image may proceed: no fault is recorded, an image exists, its bytes hold values. -/
abbrev HasImage (s : State) : Prop := s.block.fault = 0 ∧ s.block.valid = true ∧ s.block.Readable

/-- A codec or validator command may proceed: no fault is recorded, the image is a barcode image, its bytes hold values. -/
abbrev HasBarcode (s : State) : Prop := s.block.fault = 0 ∧ s.block.IsBarcode ∧ s.block.Readable

/-- The image carries the checksum of its data (R96, R110, R111: a "valid barcode image"). -/
abbrev Block.BorderAgrees (b : Block) : Prop := b.readChecksum = b.computeChecksum

/-- Two blocks that no command can tell apart: same registers, same parameter, same cells (R19). -/
structure Block.Alike (b b' : Block) : Prop where
  valid : b.valid = b'.valid
  w : b.w = b'.w
  h : b.h = b'.h
  fault : b.fault = b'.fault
  storeBytes : b.storeBytes = b'.storeBytes
  cells : b.valid = true → ∀ c r, c < b.w.toNat → r < b.h.toNat → b.cellRead c r = b'.cellRead c r

/-- The response a command gives in a state, if it gives one. -/
def reply (i : Instr) (s : State) : Option Word :=
  match exec i s with
  | .next t => t.responses.head?
  | .fault _ => none
  | .refused _ => none

/-- A list of commands executed one after the other (R39 (a), R147). -/
def execAll : List Instr → State → Host.Outcome State Fault Refusal
  | [], s => .next s
  | i :: is, s =>
    match exec i s with
    | .next t => execAll is t
    | .fault r => .fault r
    | .refused r => .refused r

/-- The value that the last of these cell writes leaves in a cell, 0 where none is to it (R39 (b)). -/
def lastWrite (writes : List (Field × Field × Bool)) (c r : Field) : Bool :=
  writes.foldl (fun v x => if x.1 = c ∧ x.2.1 = r then x.2.2 else v) false

/-- The number of 1-cells of a line or of the whole data region, as a number (R73, R74, R86). -/
def Block.rowSum (b : Block) (i : Nat) : Nat := ∑ j ∈ Finset.range b.size, (b.cellRead j i).toNat

def Block.colSum (b : Block) (i : Nat) : Nat := ∑ j ∈ Finset.range b.size, (b.cellRead i j).toNat

def Block.dataSum (b : Block) : Nat := ∑ i ∈ Finset.range b.size, b.rowSum i

/-- The commands of RENDER's equal sequence (R97): CREATE, a SET for every bit that is kept, CSREND. -/
def renderSequence (n : Field) (value : Value) (keep : Nat → Bool) : List Instr :=
  .create (n + 1) (n + 1) ::
    (((List.range (n.toNat * n.toNat)).filter keep).map fun i =>
      .set (BitVec.ofNat 8 (i % n.toNat)) (BitVec.ofNat 8 (i / n.toNat)) (value.getLsbD i)) ++
    [.csRend]

/-- A response with status FAULT: a run that has one has gone wrong (R147). -/
def wentWrong (responses : List Word) : Bool := responses.any fun rsp => decide (rspStatus rsp = 2)

/-- Only commands are presented, no reset. -/
def onlyCommands (moves : List HostMove) : Bool :=
  moves.all fun m => match m with | .command _ _ => true | .reset => false

end Machine

end Sys2Proof
end

