-- ==== Sys2Proof/Certificates/Slice0/Obligations.lean ====
section
/-! DEFINITION. The statements for the provers. `rspWord status ra rb rc` is the response word by the formula of R47,
`answered s b rsp` the machine after a command that leaves block `b` and answers `rsp` with all else as it was. The premises
`HasImage` and `HasBarcode` hold `Block.Readable`, the model's own condition (log 2, log 9), true of every image in a run from reset
(`EveryStepKeepsTheInvariant`). -/

open Sys2Proof Sys2Proof.Machine

/-! ## Encoding -/

/-- R42, R45, R51, R56: the decoder gives back every command from its word, every operand at every value. -/
def Obligations.DecodeInvertsEncode : Prop := ∀ i : Instr, i.wellFormed = true → decode (encode i) = .ok i

/-- R42, R45, R55: a word that decodes is the word of the command it decodes to, so every command has one word. -/
def Obligations.EncodeInvertsDecode : Prop := ∀ (w : Word) (i : Instr), decode w = .ok i → encode i = w

/-- R45: the rows of the opcode map are disjoint, a command's word selects the row of its mnemonic, and the words that decode are
those that select a row, less CSDRAW with `Cf = 0b10`. -/
def Obligations.LegalWordsSelectTheirRow : Prop :=
  (∀ (w : Word), ∀ row ∈ opcodeRows, ∀ row' ∈ opcodeRows, row.selects w = true → row'.selects w = true → row = row') ∧
  (∀ (w : Word) (i : Instr), decode w = .ok i →
    ∃ row ∈ opcodeRows, row.mnemonic = i.mnemonic ∧ row.selects w = true) ∧
  (∀ w : Word, (∃ i, decode w = .ok i) ↔
    (∃ row ∈ opcodeRows, row.selects w = true) ∧ ¬(w.extractLsb' 28 4 = 0x8#4 ∧ w.extractLsb' 10 2 = 0b10#2))

/-- R53, R121: the words that are illegal, by the four clauses, and what an illegal word does in any state without a recorded
fault, whatever `WDATA` holds. -/
def Obligations.IllegalWordsFault : Prop :=
  (∀ w : Word, (∃ why, decode w = .error why) ↔
    w.extractLsb' 28 4 ∈ [0x0#4, 0xD#4, 0xE#4, 0xF#4] ∨
    w.extractLsb' 0 10 ≠ 0 ∨
    (w.extractLsb' 28 4 ∈ [0x2#4, 0x3#4, 0x7#4, 0x9#4, 0xA#4, 0xC#4] ∧
      (w.extractLsb' 20 8 ≠ 0 ∨ w.extractLsb' 12 8 ≠ 0 ∨ w.extractLsb' 10 2 ≠ 0)) ∨
    (w.extractLsb' 28 4 ∈ [0x1#4, 0x4#4, 0x6#4] ∧ w.extractLsb' 10 2 ≠ 0) ∨
    (w.extractLsb' 28 4 = 0x5#4 ∧ w.extractLsb' 11 1 ≠ 0) ∨
    (w.extractLsb' 28 4 = 0xB#4 ∧ (w.extractLsb' 12 8 ≠ 0 ∨ w.extractLsb' 10 2 ≠ 0)) ∨
    (w.extractLsb' 28 4 = 0x8#4 ∧ w.extractLsb' 10 2 = 0b10#2)) ∧
  (∀ (s : State) (w : Word) (value : Value) (rest : List HostMove) (why : IllegalReason),
    s.pending = .command w value :: rest → decode w = .error why → s.block.fault = 0 →
    ∃ t, step s = .next t ∧ t.block = { s.block with fault := 1 } ∧ t.responses = 0x20100000#32 :: s.responses)

/-- V18 of the test vectors: words written out field by field, and the commands they are. -/
def Obligations.SpecWordsDecode : Prop :=
  decode 0x10707000#32 = .ok (.create 7 7) ∧ decode 0x20000000#32 = .ok .free ∧ decode 0x30000000#32 = .ok .size ∧
  decode 0x40604000#32 = .ok (.get 6 4) ∧ decode 0x50201400#32 = .ok (.set 2 1 true) ∧
  decode 0x50201000#32 = .ok (.set 2 1 false) ∧ decode 0x60606000#32 = .ok (.invert 6 6) ∧
  decode 0x70000000#32 = .ok .csComp ∧ decode 0x81103000#32 = .ok (.csDraw 0x11 0x03 .zero) ∧
  decode 0x80203400#32 = .ok (.csDraw 0x02 0x03 .one) ∧ decode 0x80000C00#32 = .ok (.csDraw 0 0 .mismatched) ∧
  decode 0x90000000#32 = .ok .csRead ∧ decode 0xA0000000#32 = .ok .csRend ∧ decode 0xB0600000#32 = .ok (.render 6) ∧
  decode 0xC0000000#32 = .ok .validate

/-- R59: when the host presents a word that decodes, the step is that command in the state with the move taken and its operand on
`WDATA`. The list of moves is the model's form of the host (log 3). -/
def Obligations.StepExecutesTheDecodedCommand : Prop :=
  ∀ (s : State) (w : Word) (value : Value) (rest : List HostMove) (i : Instr),
    s.pending = .command w value :: rest → decode w = .ok i →
    step s = exec i { s with wdata := value, pending := rest }

/-- R47, R48, R50: every command that answers gives exactly one response, its low bits are 0, and it is an OK response, the
ALLOC_ERR response of CREATE or RENDER, or a FAULT response with the fault register in `RA`. The ports stay as they were. -/
def Obligations.EveryResponseHasItsForm : Prop :=
  ∀ (i : Instr) (s t : State), exec i s = .next t →
    t.wdata = s.wdata ∧ t.pending = s.pending ∧
    ∃ rsp, t.responses = rsp :: s.responses ∧ rsp.extractLsb' 0 10 = 0 ∧
      ((rsp.extractLsb' 28 4 = 0 ∧ s.block.fault = 0 ∧ t.block.fault = 0) ∨
       (rsp = 0x10000000#32 ∧ i.needsImage = false ∧ s.block.fault = 0 ∧ t.block = s.block) ∨
       (t.block.fault ≠ 0 ∧ rsp = rspWord 2 t.block.fault.toNat 0 0))

/-! ## Faults -/

/-- R127: a faulted block answers every command, legal or not, with the recorded cause and changes no state. -/
def Obligations.FaultedBlockAnswersItsCause : Prop :=
  ∀ (s : State) (w : Word) (value : Value) (rest : List HostMove),
    s.pending = .command w value :: rest → s.block.fault ≠ 0 →
    ∃ t, step s = .next t ∧ t.block = s.block ∧ t.responses = rspWord 2 s.block.fault.toNat 0 0 :: s.responses

/-- R17, R127, R133: through any number of commands, with no reset among them, a recorded fault stays, nothing else of the block
changes, and every response is the same. -/
def Obligations.FaultStaysThroughAnyCommands : Prop :=
  ∀ (k : Nat) (s : State), s.block.fault ≠ 0 → onlyCommands s.pending = true →
    ∃ t : State, Host.Core.run Sys2Proof.core k s = .next t ∧ t.block = s.block ∧
      t.pending = s.pending.drop k ∧
      t.responses = List.replicate (min k s.pending.length) (rspWord 2 s.block.fault.toNat 0 0) ++ s.responses

/-- R122: NO_IMAGE is recorded exactly by the commands that need an image when there is none, and nothing else changes then,
whatever the operands are. -/
def Obligations.NoImageFault : Prop :=
  ∀ (i : Instr) (s : State), s.block.fault = 0 →
    ((∃ t, exec i s = .next t ∧ t.block.fault = 2) ↔ i.needsImage = true ∧ s.block.valid = false) ∧
    (i.needsImage = true → s.block.valid = false →
      exec i s = .next (answered s { s.block with fault := 2 } 0x20200000#32))

/-- R123: GET, SET and INVERT outside the image record BOUNDS, and nothing else changes; no other command records it. -/
def Obligations.OutOfBoundsFaults : Prop :=
  (∀ (s : State) (c r : Field) (v : Bool), s.block.fault = 0 → s.block.valid = true →
    s.block.w.toNat ≤ c.toNat ∨ s.block.h.toNat ≤ r.toNat →
    exec (.get c r) s = .next (answered s { s.block with fault := 3 } 0x20300000#32) ∧
    exec (.set c r v) s = .next (answered s { s.block with fault := 3 } 0x20300000#32) ∧
    exec (.invert c r) s = .next (answered s { s.block with fault := 3 } 0x20300000#32)) ∧
  (∀ (i : Instr) (s t : State), exec i s = .next t → s.block.fault = 0 → t.block.fault = 3 →
    ∃ c r : Field, (s.block.w.toNat ≤ c.toNat ∨ s.block.h.toNat ≤ r.toNat) ∧
      (i = .get c r ∨ (∃ v, i = .set c r v) ∨ i = .invert c r))

/-- R81, R124: the codec and the validator refuse an image that is not square or whose side is not in `[2, 9]`. -/
def Obligations.WrongShapeFaults : Prop :=
  ∀ (i : Instr) (s : State), i.needsBarcode = true → s.block.fault = 0 → s.block.valid = true →
    ¬(s.block.w = s.block.h ∧ 2 ≤ s.block.w.toNat ∧ s.block.w.toNat ≤ 9) →
    exec i s = .next (answered s { s.block with fault := 7 } 0x20700000#32)

/-- R125: CSDRAW of `Mismatched` on a barcode image records CONSTR_BIT and writes nothing, and CONSTR_BIT cannot arise from any
other command, CSREND and RENDER among them. -/
def Obligations.DrawingMismatchedFaults : Prop :=
  (∀ (s : State) (lc lr : Field), s.block.fault = 0 → s.block.IsBarcode →
    exec (.csDraw lc lr .mismatched) s = .next (answered s { s.block with fault := 8 } 0x20800000#32)) ∧
  (∀ (i : Instr) (s t : State), exec i s = .next t → s.block.fault = 0 → t.block.fault = 8 →
    ∃ lc lr : Field, i = .csDraw lc lr .mismatched)

/-- R61, R124, R129: CREATE with a zero dimension records CONSTR_DIM, before any question of capacity. -/
def Obligations.ZeroDimensionFaults : Prop :=
  ∀ (s : State) (w h : Field), s.block.fault = 0 → w = 0 ∨ h = 0 →
    exec (.create w h) s = .next (answered s { s.block with fault := 4 } 0x20400000#32)

/-- R91, R92: RENDER refuses a side outside `[1, 8]`, whatever the value, then a value that has a bit at or above `size*size`;
for `size = 8` every value is accepted. -/
def Obligations.RenderRefusesBadOperands : Prop :=
  ∀ (s : State) (n : Field), s.block.fault = 0 →
    (¬(1 ≤ n.toNat ∧ n.toNat ≤ 8) →
      exec (.render n) s = .next (answered s { s.block with fault := 5 } 0x20500000#32)) ∧
    (1 ≤ n.toNat → n.toNat < 8 → 2 ^ (n.toNat * n.toNat) ≤ s.wdata.toNat →
      exec (.render n) s = .next (answered s { s.block with fault := 6 } 0x20600000#32)) ∧
    (n.toNat = 8 → ∀ t, exec (.render n) s = .next t → t.block.fault = 0)

/-- R128: CREATE and RENDER of an image too large for the store, their contracts kept, answer ALLOC_ERR and change nothing. -/
def Obligations.AllocErrChangesNothing : Prop :=
  (∀ (s : State) (w h : Field), s.block.fault = 0 → w ≠ 0 → h ≠ 0 →
    s.block.storeBytes < (w.toNat * h.toNat + 7) / 8 →
    exec (.create w h) s = .next (answered s s.block 0x10000000#32)) ∧
  (∀ (s : State) (n : Field), s.block.fault = 0 → 1 ≤ n.toNat → n.toNat ≤ 8 →
    s.wdata.toNat < 2 ^ (n.toNat * n.toNat) →
    s.block.storeBytes < ((n.toNat + 1) * (n.toNat + 1) + 7) / 8 →
    exec (.render n) s = .next (answered s s.block 0x10000000#32))

/-- R69, R126: a command that does not answer OK changes no cell, no dimension and no `valid`; a fault changes the fault
register only. -/
def Obligations.NonOkChangesNothing : Prop :=
  ∀ (i : Instr) (s t : State) (rsp : Word), exec i s = .next t → t.responses = rsp :: s.responses →
    rsp.extractLsb' 28 4 ≠ 0 →
    t.block = { s.block with fault := t.block.fault } ∧
    (rsp.extractLsb' 28 4 = 1 → t.block = s.block)

/-! ## The BitImage family -/

/-- R61, R67: a CREATE that fits begins an image of that size with every cell 0, clears the bytes the image uses and no other. -/
def Obligations.CreateBeginsABlankImage : Prop :=
  ∀ (s : State) (w h : Field), s.block.fault = 0 → w ≠ 0 → h ≠ 0 →
    (w.toNat * h.toNat + 7) / 8 ≤ s.block.storeBytes →
    ∃ b : Block, exec (.create w h) s = .next (answered s b (rspWord 0 0 0 0)) ∧
      b.valid = true ∧ b.w = w ∧ b.h = h ∧ b.fault = 0 ∧ b.storeBytes = s.block.storeBytes ∧
      (∀ c r, c < w.toNat → r < h.toNat → b.cellRead c r = false) ∧
      (∀ a, a < (w.toNat * h.toNat + 7) / 8 → Memory.read? b.store a = some 0) ∧
      (∀ a, (w.toNat * h.toNat + 7) / 8 ≤ a → Memory.read? b.store a = Memory.read? s.block.store a)

/-- R62: FREE ends the image and leaves the store as it is. -/
def Obligations.FreeEndsTheImage : Prop :=
  ∀ s : State, s.block.fault = 0 → s.block.valid = true →
    exec .free s = .next (answered s { s.block with valid := false, w := 0, h := 0 } (rspWord 0 0 0 0))

/-- R63: SIZE answers `RA = W`, `RB = H` and changes nothing. -/
def Obligations.SizeAnswersTheDimensions : Prop :=
  ∀ s : State, s.block.fault = 0 → s.block.valid = true →
    exec .size s = .next (answered s s.block (rspWord 0 s.block.w.toNat s.block.h.toNat 0))

/-- R64: GET answers the cell in `RC[0]` and changes nothing. The cell is bit `(r*W + c) mod 8` of byte `(r*W + c) div 8` (R30). -/
def Obligations.GetAnswersTheCell : Prop :=
  ∀ (s : State) (c r : Field) (byte : Byte), HasImage s → c.toNat < s.block.w.toNat → r.toNat < s.block.h.toNat →
    Memory.read? s.block.store ((r.toNat * s.block.w.toNat + c.toNat) / 8) = some byte →
    exec (.get c r) s = .next (answered s s.block
      (rspWord 0 0 0 (byte.getLsbD ((r.toNat * s.block.w.toNat + c.toNat) % 8)).toNat))

/-- R32, R65: SET writes exactly its cell: the cell reads `v`, every other cell, every other byte, the other bits of the byte and
every register are as before. -/
def Obligations.SetWritesOneCell : Prop :=
  ∀ (s : State) (c r : Field) (v : Bool), HasImage s → c.toNat < s.block.w.toNat → r.toNat < s.block.h.toNat →
    ∃ b : Block, exec (.set c r v) s = .next (answered s b (rspWord 0 0 0 0)) ∧
      b.valid = true ∧ b.w = s.block.w ∧ b.h = s.block.h ∧ b.fault = 0 ∧ b.storeBytes = s.block.storeBytes ∧
      b.cellRead c.toNat r.toNat = v ∧
      (∀ c' r', c' < b.w.toNat → r' < b.h.toNat → (c', r') ≠ (c.toNat, r.toNat) →
        b.cellRead c' r' = s.block.cellRead c' r') ∧
      (∀ a, a ≠ (r.toNat * s.block.w.toNat + c.toNat) / 8 → Memory.read? b.store a = Memory.read? s.block.store a) ∧
      (∀ k < 8, k ≠ (r.toNat * s.block.w.toNat + c.toNat) % 8 →
        (b.memRead ((r.toNat * s.block.w.toNat + c.toNat) / 8)).getLsbD k =
          (s.block.memRead ((r.toNat * s.block.w.toNat + c.toNat) / 8)).getLsbD k)

/-- R66: INVERT complements exactly its cell, and two of them restore the block. -/
def Obligations.InvertComplementsOneCell : Prop :=
  ∀ (s : State) (c r : Field), HasImage s → c.toNat < s.block.w.toNat → r.toNat < s.block.h.toNat →
    ∃ b : Block, exec (.invert c r) s = .next (answered s b (rspWord 0 0 0 0)) ∧
      b.valid = true ∧ b.w = s.block.w ∧ b.h = s.block.h ∧ b.fault = 0 ∧ b.storeBytes = s.block.storeBytes ∧
      b.cellRead c.toNat r.toNat = !s.block.cellRead c.toNat r.toNat ∧
      (∀ c' r', c' < b.w.toNat → r' < b.h.toNat → (c', r') ≠ (c.toNat, r.toNat) →
        b.cellRead c' r' = s.block.cellRead c' r') ∧
      (∀ a, a ≠ (r.toNat * s.block.w.toNat + c.toNat) / 8 → Memory.read? b.store a = Memory.read? s.block.store a) ∧
      (Memory.wf s.block.store → ∃ t, exec (.invert c r) (answered s b (rspWord 0 0 0 0)) = .next t ∧ t.block = s.block)

/-- R67: read after write, for SET, INVERT and CREATE. -/
def Obligations.ReadAfterWrite : Prop :=
  (∀ (s : State) (c r : Field) (v : Bool), HasImage s → c.toNat < s.block.w.toNat → r.toNat < s.block.h.toNat →
    ∃ t, exec (.set c r v) s = .next t ∧ reply (.get c r) t = some (rspWord 0 0 0 v.toNat)) ∧
  (∀ (s : State) (c r : Field) (v : Bool), HasImage s → c.toNat < s.block.w.toNat → r.toNat < s.block.h.toNat →
    reply (.get c r) s = some (rspWord 0 0 0 v.toNat) →
    ∃ t, exec (.invert c r) s = .next t ∧ reply (.get c r) t = some (rspWord 0 0 0 (!v).toNat)) ∧
  (∀ (s t : State) (w h c r : Field), s.block.fault = 0 → exec (.create w h) s = .next t →
    t.responses = rspWord 0 0 0 0 :: s.responses → c.toNat < w.toNat → r.toNat < h.toNat →
    reply (.get c r) t = some (rspWord 0 0 0 0))

/-- R68: SET and INVERT at one cell leave the answer of GET at every other in-range cell, and of SIZE, as it was; GET and SIZE
change nothing. -/
def Obligations.OtherCellsKeepTheirValue : Prop :=
  (∀ (s : State) (c r c' r' : Field) (v : Bool), HasImage s →
    c.toNat < s.block.w.toNat → r.toNat < s.block.h.toNat → c'.toNat < s.block.w.toNat → r'.toNat < s.block.h.toNat →
    (c', r') ≠ (c, r) →
    (∃ t, exec (.set c r v) s = .next t ∧ reply (.get c' r') t = reply (.get c' r') s ∧ reply .size t = reply .size s) ∧
    (∃ t, exec (.invert c r) s = .next t ∧ reply (.get c' r') t = reply (.get c' r') s ∧ reply .size t = reply .size s)) ∧
  (∀ (s : State) (c r : Field), HasImage s → c.toNat < s.block.w.toNat → r.toNat < s.block.h.toNat →
    (∃ t, exec (.get c r) s = .next t ∧ t.block = s.block) ∧ (∃ t, exec .size s = .next t ∧ t.block = s.block))

/-- R39 (b): after a CREATE and any SETs in the image, GET answers the last value set in that cell, or 0 if none was. -/
def Obligations.LastWriteWins : Prop :=
  ∀ (s : State) (w h : Field) (writes : List (Field × Field × Bool)) (c r : Field),
    s.block.fault = 0 → w ≠ 0 → h ≠ 0 → (w.toNat * h.toNat + 7) / 8 ≤ s.block.storeBytes →
    (∀ x ∈ writes, x.1.toNat < w.toNat ∧ x.2.1.toNat < h.toNat) → c.toNat < w.toNat → r.toNat < h.toNat →
    ∃ t, execAll (.create w h :: writes.map fun x => .set x.1 x.2.1 x.2.2) s = .next t ∧
      reply (.get c r) t = some (rspWord 0 0 0 (lastWrite writes c r).toNat)

/-! ## The checksum family -/

/-- R73 to R77, R82, R86: CSCOMP answers `LC[i]` = parity of data row `i`, `LR[i]` = parity of data column `i`, 0 above `size`, and
the parity of the whole data region; it changes nothing. -/
def Obligations.CscompAnswersTheParities : Prop :=
  ∀ s : State, HasBarcode s →
    ∃ lc lr : Field, exec .csComp s = .next (answered s s.block (rspWord 0 lc.toNat lr.toNat (s.block.dataSum % 2))) ∧
      (∀ i < 8, (lc.getLsbD i).toNat = if i < s.block.size then s.block.rowSum i % 2 else 0) ∧
      (∀ i < 8, (lr.getLsbD i).toNat = if i < s.block.size then s.block.colSum i % 2 else 0)

/-- R79, R83: CSDRAW of a bit draws `lc` top to bottom in the checksum column, `lr` left to right in the checksum row and the bit
in the corner, and changes no data cell, no register and no byte that holds no border cell. -/
def Obligations.CsdrawDrawsTheBorder : Prop :=
  ∀ (s : State) (lc lr : Field) (bit : Bool), HasBarcode s →
    ∃ b : Block, exec (.csDraw lc lr (if bit then .one else .zero)) s = .next (answered s b (rspWord 0 0 0 0)) ∧
      b.valid = true ∧ b.w = s.block.w ∧ b.h = s.block.h ∧ b.fault = 0 ∧ b.storeBytes = s.block.storeBytes ∧
      (∀ i < s.block.size, b.cellRead s.block.size i = lc.getLsbD i ∧ b.cellRead i s.block.size = lr.getLsbD i) ∧
      b.cellRead s.block.size s.block.size = bit ∧
      (∀ c < s.block.size, ∀ r < s.block.size, b.cellRead c r = s.block.cellRead c r) ∧
      (∀ a, (∀ i ≤ s.block.size, a ≠ s.block.byteAddr s.block.size i ∧ a ≠ s.block.byteAddr i s.block.size) →
        Memory.read? b.store a = Memory.read? s.block.store a)

/-- R80, R84: CSREAD answers the border and changes nothing. -/
def Obligations.CsreadAnswersTheBorder : Prop :=
  ∀ s : State, HasBarcode s →
    ∃ lc lr : Field, exec .csRead s = .next (answered s s.block
        (rspWord 0 lc.toNat lr.toNat (s.block.cellRead s.block.size s.block.size).toNat)) ∧
      (∀ i < 8, lc.getLsbD i = (decide (i < s.block.size) && s.block.cellRead s.block.size i)) ∧
      (∀ i < 8, lr.getLsbD i = (decide (i < s.block.size) && s.block.cellRead i s.block.size))

/-- R85: CSREND draws the parities of the data region into the border and changes no data cell, no register and no byte that holds
no border cell. -/
def Obligations.CsrendDrawsTheParities : Prop :=
  ∀ s : State, HasBarcode s →
    ∃ b : Block, exec .csRend s = .next (answered s b (rspWord 0 0 0 0)) ∧
      b.valid = true ∧ b.w = s.block.w ∧ b.h = s.block.h ∧ b.fault = 0 ∧ b.storeBytes = s.block.storeBytes ∧
      (∀ i < s.block.size, (b.cellRead s.block.size i).toNat = s.block.rowSum i % 2 ∧
        (b.cellRead i s.block.size).toNat = s.block.colSum i % 2) ∧
      (b.cellRead s.block.size s.block.size).toNat = s.block.dataSum % 2 ∧
      (∀ c < s.block.size, ∀ r < s.block.size, b.cellRead c r = s.block.cellRead c r) ∧
      (∀ a, (∀ i ≤ s.block.size, a ≠ s.block.byteAddr s.block.size i ∧ a ≠ s.block.byteAddr i s.block.size) →
        Memory.read? b.store a = Memory.read? s.block.store a)

/-- R78: `CombinedParity` is symmetric, and is the common parity of the two counts of set bits, over all 8 bits, or `Mismatched` when
they differ. -/
def Obligations.CombinedParityTruthTable : Prop :=
  ∀ a b : Field,
    let pa := (∑ i ∈ Finset.range 8, (a.getLsbD i).toNat) % 2
    let pb := (∑ i ∈ Finset.range 8, (b.getLsbD i).toNat) % 2
    combinedParity a b = combinedParity b a ∧
    (pa = 0 → pb = 0 → combinedParity a b = .zero) ∧ (pa = 1 → pb = 1 → combinedParity a b = .one) ∧
    (pa = 0 → pb = 1 → combinedParity a b = .mismatched) ∧ (pa = 1 → pb = 0 → combinedParity a b = .mismatched)

/-- R86: the counts of set bits of the two computed labels are the numbers of odd data rows and of odd data columns, both have
the parity of the whole data region, and the computed bit is that parity and never `Mismatched`. -/
def Obligations.ExpectedBitIsTheDataParity : Prop :=
  ∀ b : Block, b.IsBarcode →
    popcount8 b.computeChecksum.lc = ∑ i ∈ Finset.range b.size, b.rowSum i % 2 ∧
    popcount8 b.computeChecksum.lr = ∑ i ∈ Finset.range b.size, b.colSum i % 2 ∧
    popcount8 b.computeChecksum.lc % 2 = b.dataSum % 2 ∧ popcount8 b.computeChecksum.lr % 2 = b.dataSum % 2 ∧
    b.computeChecksum.bit = (if b.dataSum % 2 = 1 then .one else .zero) ∧ b.computeChecksum.bit ≠ .mismatched

/-- R87: what one inverted cell does to the expected and the observed checksum, for a data cell, a checksum-column cell, a
checksum-row cell and the corner. -/
def Obligations.OneInvertedCellInTheChecksums : Prop :=
  ∀ (b : Block) (x y : Nat), b.IsBarcode →
    let e := b.computeChecksum
    let o := b.readChecksum
    (x < b.size → y < b.size →
      (b.cellInvert x y).readChecksum = o ∧
      (b.cellInvert x y).computeChecksum.lc = e.lc ^^^ (1#8 <<< y) ∧
      (b.cellInvert x y).computeChecksum.lr = e.lr ^^^ (1#8 <<< x) ∧
      (b.cellInvert x y).computeChecksum.bit = (if e.bit = .one then .zero else .one)) ∧
    (y < b.size →
      (b.cellInvert b.size y).computeChecksum = e ∧
      (b.cellInvert b.size y).readChecksum = { o with lc := o.lc ^^^ (1#8 <<< y) }) ∧
    (x < b.size →
      (b.cellInvert x b.size).computeChecksum = e ∧
      (b.cellInvert x b.size).readChecksum = { o with lr := o.lr ^^^ (1#8 <<< x) }) ∧
    (b.cellInvert b.size b.size).computeChecksum = e ∧
    (b.cellInvert b.size b.size).readChecksum = { o with bit := if o.bit = .one then .zero else .one }

/-- R88: reading inverts drawing, the labels masked to `size` bits; and after CSREND the observed checksum is the expected one. -/
def Obligations.ReadInvertsDraw : Prop :=
  (∀ (b : Block) (lc lr : Field) (bit : Bool), b.IsBarcode →
    (b.drawChecksum lc lr bit).readChecksum =
      ⟨lc &&& BitVec.ofNat 8 (2 ^ b.size - 1), lr &&& BitVec.ofNat 8 (2 ^ b.size - 1), if bit then .one else .zero⟩) ∧
  (∀ s t : State, HasBarcode s → exec .csRend s = .next t → t.block.readChecksum = t.block.computeChecksum)

/-- R90: bits `[7:size]` of every produced label are 0, and those of a drawn label are ignored. -/
def Obligations.UnusedLabelBits : Prop :=
  (∀ (b : Block) (i : Nat), b.IsBarcode → b.size ≤ i →
    b.computeChecksum.lc.getLsbD i = false ∧ b.computeChecksum.lr.getLsbD i = false ∧
    b.readChecksum.lc.getLsbD i = false ∧ b.readChecksum.lr.getLsbD i = false) ∧
  (∀ (s : State) (lc lr lc' lr' : Field) (bit : Tri),
    (∀ i < s.block.size, lc.getLsbD i = lc'.getLsbD i ∧ lr.getLsbD i = lr'.getLsbD i) →
    exec (.csDraw lc lr bit) s = exec (.csDraw lc' lr' bit) s)

/-- R89: the sixteen gated trees of eight inputs and the two reducers compute the expected checksum. -/
def Obligations.ParityTreesComputeTheChecksum : Prop :=
  ∀ b : Block, b.IsBarcode → b.parityTrees = b.computeChecksum

/-! ## The encoder -/

/-- R35, R93: a RENDER whose operands are lawful and whose image fits makes the barcode image: bit `r*size + c` of the value at data
cell `(c, r)`, the parities in the border; no byte beyond the image changes. -/
def Obligations.RenderMakesTheBarcode : Prop :=
  ∀ (s : State) (n : Field), s.block.fault = 0 → 1 ≤ n.toNat → n.toNat ≤ 8 →
    s.wdata.toNat < 2 ^ (n.toNat * n.toNat) →
    ((n.toNat + 1) * (n.toNat + 1) + 7) / 8 ≤ s.block.storeBytes →
    ∃ b : Block, exec (.render n) s = .next (answered s b (rspWord 0 0 0 0)) ∧
      b.valid = true ∧ b.w.toNat = n.toNat + 1 ∧ b.h.toNat = n.toNat + 1 ∧ b.fault = 0 ∧
      b.storeBytes = s.block.storeBytes ∧
      (∀ c < n.toNat, ∀ r < n.toNat, b.cellRead c r = s.wdata.getLsbD (r * n.toNat + c)) ∧
      (∀ i < n.toNat, (b.cellRead n.toNat i).toNat = b.rowSum i % 2 ∧ (b.cellRead i n.toNat).toNat = b.colSum i % 2) ∧
      (b.cellRead n.toNat n.toNat).toNat = b.dataSum % 2 ∧
      (∀ a, ((n.toNat + 1) * (n.toNat + 1) + 7) / 8 ≤ a → Memory.read? b.store a = Memory.read? s.block.store a)

/-- R98: once its preconditions hold RENDER answers OK or ALLOC_ERR, and OK whenever `STORE_BYTES` is at least 11. -/
def Obligations.RenderFailsOnlyByAllocation : Prop :=
  ∀ (s : State) (n : Field), s.block.fault = 0 → 1 ≤ n.toNat → n.toNat ≤ 8 →
    s.wdata.toNat < 2 ^ (n.toNat * n.toNat) →
    (reply (.render n) s = some (rspWord 0 0 0 0) ∨ reply (.render n) s = some (rspWord 1 0 0 0)) ∧
    (11 ≤ s.block.storeBytes → reply (.render n) s = some (rspWord 0 0 0 0))

/-- R95: after a RENDER that answers OK, `Decode` of the image is the value. -/
def Obligations.RenderRoundTrip : Prop :=
  ∀ (s t : State) (n : Field), s.block.fault = 0 → 1 ≤ n.toNat → n.toNat ≤ 8 →
    s.wdata.toNat < 2 ^ (n.toNat * n.toNat) → exec (.render n) s = .next t →
    t.responses = rspWord 0 0 0 0 :: s.responses → t.block.decodeValue = s.wdata

/-- R96: after a RENDER that answers OK the observed checksum is the expected one, and VALIDATE answers Valid and changes
nothing. -/
def Obligations.RenderedImageIsValid : Prop :=
  ∀ (s t : State) (n : Field), s.block.fault = 0 → exec (.render n) s = .next t →
    t.responses = rspWord 0 0 0 0 :: s.responses →
    t.block.readChecksum = t.block.computeChecksum ∧
    exec .validate t = .next (answered t t.block (rspWord 0 0 0 0))

/-- R97: a RENDER that answers OK leaves the same block as CREATE, a SET for every bit of the value (or only for those that are 1),
and CSREND. -/
def Obligations.RenderEqualsItsSequence : Prop :=
  ∀ (s t : State) (n : Field), s.block.Inv → s.block.fault = 0 → exec (.render n) s = .next t →
    t.responses = rspWord 0 0 0 0 :: s.responses →
    (∃ u, execAll (renderSequence n s.wdata fun _ => true) s = .next u ∧ u.block = t.block) ∧
    (∃ u, execAll (renderSequence n s.wdata fun i => s.wdata.getLsbD i) s = .next u ∧ u.block = t.block)

/-! ## The validator -/

/-- R101 to R108: VALIDATE by the decision table, on any barcode image, the syndromes written as one-hot labels. -/
def Obligations.ValidateFollowsTheTable : Prop :=
  ∀ s : State, HasBarcode s →
    let o := s.block.readChecksum
    let e := s.block.computeChecksum
    let cErr := o.lc ^^^ e.lc
    let rErr := o.lr ^^^ e.lr
    let m := o.bit = combinedParity o.lc o.lr
    let n := s.block.size
    (o = e → exec .validate s = .next (answered s s.block (rspWord 0 0 0 0))) ∧
    (o ≠ e →
      (∀ x < 8, ∀ y < 8, cErr = 1#8 <<< y → rErr = 1#8 <<< x → m →
        exec .validate s = .next (answered s (s.block.cellInvert x y) (rspWord 0 x y 1))) ∧
      (∀ y < 8, cErr = 1#8 <<< y → rErr = 0 → ¬m →
        exec .validate s = .next (answered s (s.block.cellInvert n y) (rspWord 0 n y 1))) ∧
      (∀ x < 8, cErr = 0 → rErr = 1#8 <<< x → ¬m →
        exec .validate s = .next (answered s (s.block.cellInvert x n) (rspWord 0 x n 1))) ∧
      (cErr = 0 → rErr = 0 → ¬m →
        exec .validate s = .next (answered s (s.block.cellInvert n n) (rspWord 0 n n 1))) ∧
      (¬((∃ y < 8, cErr = 1#8 <<< y) ∧ (∃ x < 8, rErr = 1#8 <<< x) ∧ m) →
        ¬((∃ y < 8, cErr = 1#8 <<< y) ∧ rErr = 0 ∧ ¬m) →
        ¬(cErr = 0 ∧ (∃ x < 8, rErr = 1#8 <<< x) ∧ ¬m) →
        ¬(cErr = 0 ∧ rErr = 0 ∧ ¬m) →
        exec .validate s = .next (answered s s.block (rspWord 0 0 0 2))))

/-- R107: VALIDATE writes one cell exactly when it answers Corrected, the cell whose address it answers, and none otherwise; no
register and no other byte changes. -/
def Obligations.ValidateWritesAtMostOneCell : Prop :=
  ∀ s : State, HasBarcode s → ∃ (b : Block) (rsp : Word), exec .validate s = .next (answered s b rsp) ∧
    b.valid = true ∧ b.w = s.block.w ∧ b.h = s.block.h ∧ b.fault = 0 ∧ b.storeBytes = s.block.storeBytes ∧
    ((rsp = rspWord 0 0 0 0 ∧ b = s.block) ∨ (rsp = rspWord 0 0 0 2 ∧ b = s.block) ∨
     (∃ c r, c < s.block.w.toNat ∧ r < s.block.h.toNat ∧ rsp = rspWord 0 c r 1 ∧
       b.cellRead c r = (!s.block.cellRead c r) ∧
       (∀ c' r', c' < s.block.w.toNat → r' < s.block.h.toNat → (c', r') ≠ (c, r) →
         b.cellRead c' r' = s.block.cellRead c' r') ∧
       (∀ a, a ≠ s.block.byteAddr c r → Memory.read? b.store a = Memory.read? s.block.store a)))

/-- R118: with an image whose bytes hold values and no earlier fault, VALIDATE faults exactly for the shape, and its outcome codes are
the three of R52. -/
def Obligations.ValidateNeverFaultsOnContent : Prop :=
  ∀ s : State, s.block.fault = 0 → s.block.valid = true → s.block.Readable →
    (s.block.IsBarcode → ∃ rsp, reply .validate s = some rsp ∧ rsp.extractLsb' 28 4 = 0 ∧ rsp.extractLsb' 10 2 ≠ 3) ∧
    (¬ s.block.IsBarcode → reply .validate s = some 0x20700000#32)

/-- R110: on an image whose border agrees with its data VALIDATE answers Valid and changes nothing, as often as it is repeated. -/
def Obligations.ValidStaysValid : Prop :=
  ∀ (s : State) (k : Nat), HasBarcode s → s.block.readChecksum = s.block.computeChecksum →
    execAll (List.replicate k .validate) s =
      .next { s with responses := List.replicate k (rspWord 0 0 0 0) ++ s.responses }

/-- R111: single-error correction. Any one cell of a valid barcode image inverted, VALIDATE answers Corrected with its address and
leaves exactly the image there was. -/
def Obligations.SingleErrorCorrection : Prop :=
  ∀ (s : State) (x y : Field), s.block.Inv → s.block.fault = 0 → s.block.IsBarcode →
    s.block.readChecksum = s.block.computeChecksum → x.toNat < s.block.w.toNat → y.toNat < s.block.h.toNat →
    ∃ t u, exec (.invert x y) s = .next t ∧ exec .validate t = .next u ∧
      u.responses = rspWord 0 x.toNat y.toNat 1 :: t.responses ∧ u.block = s.block

/-- R112: after CSREND, or a RENDER that answers OK, VALIDATE answers Valid. -/
def Obligations.ValidAfterDrawing : Prop :=
  (∀ s t : State, HasBarcode s → exec .csRend s = .next t → reply .validate t = some (rspWord 0 0 0 0)) ∧
  (∀ (s t : State) (n : Field), s.block.fault = 0 → exec (.render n) s = .next t →
    t.responses = rspWord 0 0 0 0 :: s.responses → reply .validate t = some (rspWord 0 0 0 0))

/-- R109: which combinations of counts and match can occur once the border disagrees with the data. -/
def Obligations.SyndromeCombinations : Prop :=
  (∀ b : Block, b.IsBarcode →
    let o := b.readChecksum
    let e := b.computeChecksum
    let cCnt := popcount8 (o.lc ^^^ e.lc)
    let rCnt := popcount8 (o.lr ^^^ e.lr)
    let ref := combinedParity o.lc o.lr
    popcount8 e.lc % 2 = popcount8 e.lr % 2 ∧
    popcount8 o.lc % 2 = (popcount8 e.lc + cCnt) % 2 ∧ popcount8 o.lr % 2 = (popcount8 e.lr + rCnt) % 2 ∧
    (ref = .mismatched ↔ cCnt % 2 ≠ rCnt % 2) ∧
    ¬(cCnt = 1 ∧ rCnt = 0 ∧ o.bit = ref) ∧ ¬(cCnt = 0 ∧ rCnt = 1 ∧ o.bit = ref) ∧
    (o ≠ e → ¬(cCnt = 0 ∧ rCnt = 0 ∧ o.bit = ref))) ∧
  (∃ s : State, HasBarcode s ∧
    popcount8 (s.block.readChecksum.lc ^^^ s.block.computeChecksum.lc) = 1 ∧
    popcount8 (s.block.readChecksum.lr ^^^ s.block.computeChecksum.lr) = 1 ∧
    s.block.readChecksum.bit ≠ combinedParity s.block.readChecksum.lc s.block.readChecksum.lr ∧
    reply .validate s = some (rspWord 0 0 0 2))

/-- R114: the double errors, on a valid barcode image, that are reported Uncorrectable, and nothing is changed. -/
def Obligations.DoubleErrorsReported : Prop :=
  ∀ s : State, HasBarcode s → s.block.readChecksum = s.block.computeChecksum →
    let n := s.block.size
    ∀ c₁ r₁ c₂ r₂ : Nat, (c₁, r₁) ≠ (c₂, r₂) →
    ((c₁ < n ∧ c₂ < n ∧ r₁ < n ∧ r₁ = r₂) ∨
     (c₁ < n ∧ r₁ < n ∧ r₂ < n ∧ c₁ = c₂) ∨
     (c₁ < n ∧ c₂ < n ∧ r₁ < n ∧ r₂ < n ∧ c₁ ≠ c₂ ∧ r₁ ≠ r₂) ∨
     (c₁ < n ∧ r₁ < n ∧ c₂ = n ∧ r₂ = n) ∨
     (c₁ = n ∧ c₂ = n ∧ r₁ < n ∧ r₂ < n) ∨ (r₁ = n ∧ r₂ = n ∧ c₁ < n ∧ c₂ < n) ∨
     (c₁ = n ∧ r₁ < n ∧ c₂ < n ∧ r₂ = n)) →
    ∀ t : State, t.block = (s.block.cellInvert c₁ r₁).cellInvert c₂ r₂ →
      exec .validate t = .next (answered t t.block (rspWord 0 0 0 2))

/-- R115: the double errors, on a valid barcode image, that are answered Corrected, and the cell that is inverted then. -/
def Obligations.DoubleErrorsMiscorrected : Prop :=
  ∀ (s : State) (x y : Nat), HasBarcode s → s.block.readChecksum = s.block.computeChecksum →
    x < s.block.size → y < s.block.size →
    let n := s.block.size
    (∀ t : State, t.block = (s.block.cellInvert x y).cellInvert n y →
      exec .validate t = .next (answered t (t.block.cellInvert x n) (rspWord 0 x n 1))) ∧
    (∀ t : State, t.block = (s.block.cellInvert x y).cellInvert x n →
      exec .validate t = .next (answered t (t.block.cellInvert n y) (rspWord 0 n y 1))) ∧
    (∀ t : State, t.block = (s.block.cellInvert n y).cellInvert n n →
      exec .validate t = .next (answered t (t.block.cellInvert n y) (rspWord 0 n y 1))) ∧
    (∀ t : State, t.block = (s.block.cellInvert x n).cellInvert n n →
      exec .validate t = .next (answered t (t.block.cellInvert x n) (rspWord 0 x n 1)))

/-- R144: CSCOMP and CSREAD give the same answer exactly when VALIDATE would answer Valid. -/
def Obligations.PureCheckEqualsValidate : Prop :=
  ∀ s : State, HasBarcode s → (reply .csComp s = reply .csRead s ↔ reply .validate s = some (rspWord 0 0 0 0))

/-! ## The machine -/

/-- R25, R137: reset leaves no image, zero dimensions and no fault, from any state; the parameter stays. That no byte of the store holds
a value then, and that the ports are kept, is the model's form (log 2, log 6). -/
def Obligations.ResetLeavesNoImage : Prop :=
  (State.reset.block.valid = false ∧ State.reset.block.w = 0 ∧ State.reset.block.h = 0 ∧ State.reset.block.fault = 0) ∧
  (∀ (s : State) (rest : List HostMove), s.pending = .reset :: rest →
    ∃ b : Block, step s = .next { s with block := b, pending := rest } ∧
      b.valid = false ∧ b.w = 0 ∧ b.h = 0 ∧ b.fault = 0 ∧ b.storeBytes = s.block.storeBytes ∧ b.store = [])

/-- R21: the invariants hold after reset. -/
def Obligations.InvariantAtReset : Prop := State.reset.block.Inv

/-- R21: every step keeps the invariants, from every state that has them. -/
def Obligations.EveryStepKeepsTheInvariant : Prop :=
  ∀ s t : State, s.block.Inv → step s = .next t → t.block.Inv

/-- R59, R136: under the invariants the machine never stops: every step answers a next state. -/
def Obligations.NoStopUnderTheInvariant : Prop := ∀ s : State, s.block.Inv → ∃ t, step s = .next t

/-- U10: the pad bits of the last used byte are 0 while an image exists, if they were. -/
def Obligations.PadBitsStayZero : Prop :=
  ∀ s t : State, s.block.Inv → s.block.PadZero → step s = .next t → t.block.PadZero

/-- R15, R21 (d): a command that changes `W`, `H` or `valid` is a CREATE, a RENDER or a FREE that answered OK. -/
def Obligations.DimensionsChangeWithTheImage : Prop :=
  ∀ (i : Instr) (s t : State), exec i s = .next t →
    t.block.w ≠ s.block.w ∨ t.block.h ≠ s.block.h ∨ t.block.valid ≠ s.block.valid →
    t.responses = rspWord 0 0 0 0 :: s.responses ∧
      (i = .free ∨ (∃ w h, i = .create w h) ∨ ∃ n, i = .render n)

/-- R43: a RENDER that answers OK puts `WDATA[i]` at the cell of bit `i`; every other command ignores `WDATA`. -/
def Obligations.OnlyRenderReadsWdata : Prop :=
  (∀ (s t : State) (n : Field), s.block.fault = 0 → exec (.render n) s = .next t →
    t.responses = rspWord 0 0 0 0 :: s.responses →
    ∀ i < n.toNat * n.toNat, t.block.cellRead (i % n.toNat) (i / n.toNat) = s.wdata.getLsbD i) ∧
  (∀ (i : Instr) (s : State) (value : Value), (∀ n, i ≠ .render n) →
    (∀ t, exec i s = .next t → exec i { s with wdata := value } = .next { t with wdata := value }) ∧
    (∀ f, exec i s = .fault f → exec i { s with wdata := value } = .fault f))

/-- R19, R25, R71, U10: two machines whose blocks agree in their registers and cells, whatever the bytes of their stores that hold no
cell, cannot be told apart: the same move gives the same responses, and the blocks agree again. -/
def Obligations.StoreBytesAreUnobservable : Prop :=
  ∀ s s' t : State, s.block.Alike s'.block → (s.block.valid = true → s.block.Readable ∧ s'.block.Readable) →
    s.pending = s'.pending → s.wdata = s'.wdata → step s = .next t →
    ∃ t', step s' = .next t' ∧ t.block.Alike t'.block ∧ (t.block.valid = true → t.block.Readable ∧ t'.block.Readable) ∧
      t.pending = t'.pending ∧ t.wdata = t'.wdata ∧
      ∃ new : List Word, t.responses = new ++ s.responses ∧ t'.responses = new ++ s'.responses

/-- R57: lines of the textual form and the commands they are. White space and the operand `WDATA` of the commands that ignore it are the
model's choice (log 10). -/
def Obligations.TextLinesAssemble : Prop :=
  Text.parseLine "CREATE 7, 7".toList = .ok (some ⟨0x10707000, 0⟩) ∧
  Text.parseLine "RENDER 6, 20111001 ; the concrete scenario".toList = .ok (some ⟨0xB0600000, 0x132DE99⟩) ∧
  Text.parseLine "CSDRAW 0x02, 0b11, 1".toList = .ok (some ⟨0x80203400, 0⟩) ∧
  Text.parseLine "CSDRAW 0, 0, M".toList = .ok (some ⟨0x80000C00, 0⟩) ∧
  Text.parseLine "SET 2, 1, 1".toList = .ok (some ⟨0x50201400, 0⟩) ∧
  Text.parseLine "; a comment".toList = .ok none ∧
  Text.showResponse 0x20700000 = some "FAULT CONSTR_SHAPE".toList ∧
  Text.showResponse 0x10000000 = some "ALLOC_ERR".toList
end

