-- ==== Sys2Proof/Laws/Memory.lean ====
section
/-! SUPPORT. The laws of the store as a list of bytes: read after write, what a clearing leaves, the canonical form, and that
stores with equal reads are equal data. -/

namespace Sys2Proof.Machine.Memory

@[simp] theorem read?_nil (a : Nat) : read? [] a = none := rfl

theorem read?_cons (k : Nat) (x : Byte) (m : Memory) (a : Nat) :
    read? ((k, x) :: m) a = if k = a then some x else read? m a := rfl

theorem read?_write (m : Memory) (a : Nat) (v : Byte) (a' : Nat) :
    read? (write m a v) a' = if a' = a then some v else read? m a' := by
  induction m with
  | nil => simp only [write, read?_cons, read?_nil, eq_comm]
  | cons e m ih =>
    obtain ⟨k, x⟩ := e
    simp only [write]
    split_ifs with h1 h2 <;> simp only [read?_cons, ih] <;> split_ifs <;> first | rfl | omega

@[simp] theorem read?_write_same (m : Memory) (a : Nat) (v : Byte) : read? (write m a v) a = some v := by
  simp [read?_write]

theorem read?_write_other (m : Memory) {a a' : Nat} (v : Byte) (h : a' ≠ a) : read? (write m a v) a' = read? m a' := by
  simp [read?_write, h]

theorem read?_clear (m : Memory) (n a : Nat) : read? (clear m n) a = if a < n then some 0 else read? m a := by
  induction n with
  | zero => simp [clear]
  | succ n ih =>
    simp only [clear, read?_write, ih]
    split_ifs <;> first | rfl | omega

theorem mem_write {m : Memory} {a : Nat} {v : Byte} {x : Host.Cell} (h : x ∈ write m a v) : x = (a, v) ∨ x ∈ m := by
  induction m with
  | nil => simpa [write] using h
  | cons e m ih =>
    simp only [write] at h
    split_ifs at h with h1 h2 <;> simp only [List.mem_cons] at h ⊢
    · tauto
    · tauto
    · rcases h with h | h
      · tauto
      · have := ih h; tauto

theorem mem_clear {m : Memory} {n : Nat} {x : Host.Cell} (h : x ∈ clear m n) : x.1 < n ∨ x ∈ m := by
  induction n with
  | zero => exact .inr h
  | succ n ih =>
    rcases mem_write h with h | h
    · left; simp [h]
    · rcases ih h with h | h
      · left; omega
      · exact .inr h

theorem wf_nil : wf [] := List.Pairwise.nil

theorem wf_write {m : Memory} (h : wf m) (a : Nat) (v : Byte) : wf (write m a v) := by
  induction m with
  | nil => simp [write, wf]
  | cons e m ih =>
    obtain ⟨k, x⟩ := e
    have hm := List.pairwise_cons.mp h
    simp only [write]
    split_ifs with h1 h2
    · refine List.pairwise_cons.mpr ⟨fun y hy => ?_, h⟩
      rcases List.mem_cons.mp hy with rfl | hy
      · exact h1
      · have := hm.1 y hy; simp at this ⊢; omega
    · subst h2
      exact List.pairwise_cons.mpr ⟨hm.1, hm.2⟩
    · refine List.pairwise_cons.mpr ⟨fun y hy => ?_, ih hm.2⟩
      rcases mem_write hy with rfl | hy
      · simp; omega
      · exact hm.1 y hy

theorem wf_clear {m : Memory} (h : wf m) (n : Nat) : wf (clear m n) := by
  induction n with
  | zero => exact h
  | succ n ih => exact wf_write ih n 0

/-- An address below every listed one holds no value. -/
theorem read?_none_of_lt {m : Memory} {a : Nat} (h : ∀ x ∈ m, a < x.1) : read? m a = none := by
  induction m with
  | nil => rfl
  | cons e m ih =>
    have := h e (by simp)
    simp only [read?]
    rw [if_neg (by omega), ih fun x hx => h x (by simp [hx])]

/-- Canonical stores with equal reads are equal data. -/
theorem ext_of_wf {m m' : Memory} (h : wf m) (h' : wf m') (heq : ∀ a, read? m a = read? m' a) : m = m' := by
  induction m generalizing m' with
  | nil =>
    cases m' with
    | nil => rfl
    | cons e m' => have := heq e.1; simp [read?] at this
  | cons e m ih =>
    obtain ⟨k, x⟩ := e
    have hm := List.pairwise_cons.mp h
    cases m' with
    | nil => have := heq k; simp [read?] at this
    | cons e' m' =>
      obtain ⟨k', x'⟩ := e'
      have hm' := List.pairwise_cons.mp h'
      have hk : k = k' := by
        rcases Nat.lt_trichotomy k k' with hlt | heq' | hlt
        · have h1 : read? ((k', x') :: m') k = none := read?_none_of_lt fun y hy => by
            rcases List.mem_cons.mp hy with rfl | hy
            · exact hlt
            · have := hm'.1 y hy; simp at this; omega
          have := heq k; rw [h1] at this; simp [read?] at this
        · exact heq'
        · have h1 : read? ((k, x) :: m) k' = none := read?_none_of_lt fun y hy => by
            rcases List.mem_cons.mp hy with rfl | hy
            · exact hlt
            · have := hm.1 y hy; simp at this; omega
          have := heq k'; rw [h1] at this; simp [read?] at this
      subst hk
      have hx : x = x' := by have := heq k; simpa [read?] using this
      subst hx
      congr 1
      refine ih hm.2 hm'.2 fun a => ?_
      by_cases ha : k = a
      · subst ha
        rw [read?_none_of_lt fun y hy => hm.1 y hy, read?_none_of_lt fun y hy => hm'.1 y hy]
      · have := heq a; simpa [read?, ha] using this

end Sys2Proof.Machine.Memory
end

