-- ==== Sys2Proof/Laws/State.lean ====
section
/-! SUPPORT. One lemma per field per update, so that no later proof unfolds a record update. -/

namespace Sys2Proof.Machine

section Block

variable (b : Block)

@[simp] theorem cellWrite_valid (c r : Nat) (v : Bool) : (b.cellWrite c r v).valid = b.valid := rfl
@[simp] theorem cellWrite_w (c r : Nat) (v : Bool) : (b.cellWrite c r v).w = b.w := rfl
@[simp] theorem cellWrite_h (c r : Nat) (v : Bool) : (b.cellWrite c r v).h = b.h := rfl
@[simp] theorem cellWrite_fault (c r : Nat) (v : Bool) : (b.cellWrite c r v).fault = b.fault := rfl
@[simp] theorem cellWrite_storeBytes (c r : Nat) (v : Bool) : (b.cellWrite c r v).storeBytes = b.storeBytes := rfl
@[simp] theorem cellWrite_size (c r : Nat) (v : Bool) : (b.cellWrite c r v).size = b.size := rfl
@[simp] theorem cellWrite_usedBytes (c r : Nat) (v : Bool) : (b.cellWrite c r v).usedBytes = b.usedBytes := rfl
@[simp] theorem cellWrite_idx (c r : Nat) (v : Bool) (c' r' : Nat) : (b.cellWrite c r v).idx c' r' = b.idx c' r' := rfl
@[simp] theorem cellWrite_byteAddr (c r : Nat) (v : Bool) (c' r' : Nat) :
    (b.cellWrite c r v).byteAddr c' r' = b.byteAddr c' r' := rfl

@[simp] theorem cellInvert_valid (c r : Nat) : (b.cellInvert c r).valid = b.valid := rfl
@[simp] theorem cellInvert_w (c r : Nat) : (b.cellInvert c r).w = b.w := rfl
@[simp] theorem cellInvert_h (c r : Nat) : (b.cellInvert c r).h = b.h := rfl
@[simp] theorem cellInvert_fault (c r : Nat) : (b.cellInvert c r).fault = b.fault := rfl
@[simp] theorem cellInvert_storeBytes (c r : Nat) : (b.cellInvert c r).storeBytes = b.storeBytes := rfl
@[simp] theorem cellInvert_size (c r : Nat) : (b.cellInvert c r).size = b.size := rfl
@[simp] theorem cellInvert_usedBytes (c r : Nat) : (b.cellInvert c r).usedBytes = b.usedBytes := rfl

@[simp] theorem newImage_valid (w h : Field) : (b.newImage w h).valid = true := rfl
@[simp] theorem newImage_w (w h : Field) : (b.newImage w h).w = w := rfl
@[simp] theorem newImage_h (w h : Field) : (b.newImage w h).h = h := rfl
@[simp] theorem newImage_fault (w h : Field) : (b.newImage w h).fault = b.fault := rfl
@[simp] theorem newImage_store (w h : Field) :
    (b.newImage w h).store = b.store.clear (bytesFor w.toNat h.toNat) := rfl
@[simp] theorem newImage_storeBytes (w h : Field) : (b.newImage w h).storeBytes = b.storeBytes := rfl

@[simp] theorem afterReset_valid : b.afterReset.valid = false := rfl
@[simp] theorem afterReset_w : b.afterReset.w = 0 := rfl
@[simp] theorem afterReset_h : b.afterReset.h = 0 := rfl
@[simp] theorem afterReset_fault : b.afterReset.fault = 0 := rfl
@[simp] theorem afterReset_store : b.afterReset.store = [] := rfl
@[simp] theorem afterReset_storeBytes : b.afterReset.storeBytes = b.storeBytes := rfl

@[simp] theorem flip_valid_outcome : b.flip .valid = b := rfl
@[simp] theorem flip_corrected (c r : Nat) : b.flip (.corrected c r) = b.cellInvert c r := rfl
@[simp] theorem flip_uncorrectable : b.flip .uncorrectable = b := rfl

end Block

section State

variable (s : State) (value : Value) (rest : List HostMove)

@[simp] theorem accept_block : (accept value rest s).block = s.block := rfl
@[simp] theorem accept_wdata : (accept value rest s).wdata = value := rfl
@[simp] theorem accept_pending : (accept value rest s).pending = rest := rfl
@[simp] theorem accept_responses : (accept value rest s).responses = s.responses := rfl

end State

end Sys2Proof.Machine
end

