-- ==== Sys2Proof/Laws/Cells.lean ====
section
/-! SUPPORT. The laws of cells: which bit a write changes (R32), injectivity of the placement (R29), read after write, and what
a cell write keeps. -/

namespace Sys2Proof.Machine.Block

theorem getLsbD_putBit (old : Byte) {k : Nat} (hk : k < 8) (v : Bool) {j : Nat} (hj : j < 8) :
    (putBit old k v).getLsbD j = if j = k then v else old.getLsbD j := by
  simp only [putBit, BitVec.getLsbD_or, BitVec.getLsbD_and, BitVec.getLsbD_not, BitVec.getLsbD_shiftLeft,
    BitVec.getLsbD_setWidth, BitVec.getLsbD_ofBool, BitVec.getLsbD_one]
  rcases Nat.lt_trichotomy j k with h | h | h
  · simp [hj, h, Nat.ne_of_lt h]
  · subst h; simp [hj]
  · have h1 : ¬ j < k := by omega
    have h2 : j - k ≠ 0 := by omega
    simp [hj, h1, h2, Nat.ne_of_gt h]

theorem memRead_cellWrite (b : Block) (c r : Nat) (v : Bool) (a : Nat) :
    (b.cellWrite c r v).memRead a =
      if a = b.byteAddr c r then putBit (b.memRead a) (b.idx c r % 8) v else b.memRead a := by
  simp only [memRead, cellWrite, Memory.read?_write]
  by_cases h : a = b.byteAddr c r
  · subst h; simp
  · simp [h]

/-- The placement of R29 is injective on the columns of the image. -/
theorem idx_inj (b : Block) {c r c' r' : Nat} (hc : c < b.w.toNat) (hc' : c' < b.w.toNat)
    (h : b.idx c r = b.idx c' r') : c = c' ∧ r = r' := by
  simp only [idx] at h
  have h1 : (r * b.w.toNat + c) % b.w.toNat = (r' * b.w.toNat + c') % b.w.toNat := by rw [h]
  have h2 : (r * b.w.toNat + c) / b.w.toNat = (r' * b.w.toNat + c') / b.w.toNat := by rw [h]
  have hpos : 0 < b.w.toNat := by omega
  rw [Nat.mul_comm r, Nat.mul_comm r', Nat.mul_add_mod, Nat.mul_add_mod, Nat.mod_eq_of_lt hc, Nat.mod_eq_of_lt hc'] at h1
  rw [Nat.mul_comm r, Nat.mul_comm r', Nat.mul_add_div hpos, Nat.mul_add_div hpos, Nat.div_eq_of_lt hc,
    Nat.div_eq_of_lt hc'] at h2
  omega

theorem idx_lt (b : Block) {c r : Nat} (hc : c < b.w.toNat) (hr : r < b.h.toNat) :
    b.idx c r < b.w.toNat * b.h.toNat := by
  have h1 : (r + 1) * b.w.toNat ≤ b.h.toNat * b.w.toNat := Nat.mul_le_mul_right _ hr
  rw [Nat.add_mul, Nat.one_mul] at h1
  simp only [idx]
  rw [Nat.mul_comm b.w.toNat]
  omega

theorem byteAddr_lt_usedBytes (b : Block) {c r : Nat} (hc : c < b.w.toNat) (hr : r < b.h.toNat) :
    b.byteAddr c r < b.usedBytes := by
  have := b.idx_lt hc hr
  simp only [byteAddr, usedBytes, bytesFor]
  omega

/-- Bit `i mod 8` of byte `i div 8` is the bit of linear index `i`. -/
theorem bit_cellWrite (b : Block) (c r : Nat) (v : Bool) (i : Nat) :
    ((b.cellWrite c r v).memRead (i / 8)).getLsbD (i % 8) =
      if i = b.idx c r then v else (b.memRead (i / 8)).getLsbD (i % 8) := by
  rw [memRead_cellWrite]
  by_cases h : i / 8 = b.byteAddr c r
  · rw [if_pos h, getLsbD_putBit _ (Nat.mod_lt _ (by decide)) _ (Nat.mod_lt _ (by decide))]
    have : i % 8 = b.idx c r % 8 ↔ i = b.idx c r := by
      simp only [byteAddr] at h
      omega
    simp [this]
  · rw [if_neg h, if_neg]
    rintro rfl
    exact h rfl

theorem cellRead_cellWrite (b : Block) (c r : Nat) (v : Bool) {c' r' : Nat} (hc : c < b.w.toNat)
    (hc' : c' < b.w.toNat) :
    (b.cellWrite c r v).cellRead c' r' = if c' = c ∧ r' = r then v else b.cellRead c' r' := by
  have h := bit_cellWrite b c r v (b.idx c' r')
  simp only [cellRead, cellWrite_idx, cellWrite_byteAddr]
  rw [byteAddr, h]
  by_cases hi : b.idx c' r' = b.idx c r
  · have := b.idx_inj hc' hc hi
    simp [this]
  · have hne : ¬(c' = c ∧ r' = r) := by
      rintro ⟨rfl, rfl⟩
      exact hi rfl
    rw [if_neg hi, if_neg hne]

theorem cellRead_cellWrite_same (b : Block) (c r : Nat) (v : Bool) (hc : c < b.w.toNat) :
    (b.cellWrite c r v).cellRead c r = v := by
  simp [cellRead_cellWrite b c r v hc hc]

theorem cellRead_cellInvert (b : Block) (c r : Nat) {c' r' : Nat} (hc : c < b.w.toNat) (hc' : c' < b.w.toNat) :
    (b.cellInvert c r).cellRead c' r' = Bool.xor (b.cellRead c' r') (decide (c' = c ∧ r' = r)) := by
  rw [cellInvert, cellRead_cellWrite b c r _ hc hc']
  by_cases h : c' = c ∧ r' = r
  · obtain ⟨rfl, rfl⟩ := h; simp
  · simp [h]

/-- After CREATE's clearing every cell of the new image is 0 (R61). -/
theorem cellRead_newImage (b : Block) (w h : Field) {c r : Nat} (hc : c < w.toNat) (hr : r < h.toNat) :
    (b.newImage w h).cellRead c r = false := by
  have hlt := (b.newImage w h).byteAddr_lt_usedBytes (c := c) (r := r) hc hr
  simp only [usedBytes, newImage_w, newImage_h] at hlt
  simp [cellRead, memRead, Memory.read?_clear, hlt]

theorem read?_cellWrite_other (b : Block) (c r : Nat) (v : Bool) {a : Nat} (h : a ≠ b.byteAddr c r) :
    Memory.read? (b.cellWrite c r v).store a = Memory.read? b.store a :=
  Memory.read?_write_other _ _ h

theorem held_cellWrite (b : Block) (c r : Nat) (v : Bool) {k : Nat} (h : (Memory.read? b.store k).isSome = true) :
    (Memory.read? (b.cellWrite c r v).store k).isSome = true := by
  simp only [cellWrite, Memory.read?_write]
  split <;> simp_all

theorem readable_cellWrite {b : Block} (h : b.Readable) (c r : Nat) (v : Bool) : (b.cellWrite c r v).Readable :=
  ⟨h.1, fun k hk => b.held_cellWrite c r v (h.2 k hk)⟩

theorem readable_cellInvert {b : Block} (h : b.Readable) (c r : Nat) : (b.cellInvert c r).Readable :=
  readable_cellWrite h c r _

theorem readable_newImage (b : Block) (w h : Field) (hfit : bytesFor w.toNat h.toNat ≤ b.storeBytes) :
    (b.newImage w h).Readable :=
  ⟨hfit, fun k hk => by
    have : k < bytesFor w.toNat h.toNat := hk
    simp [Memory.read?_clear, this]⟩

theorem wf_cellWrite {b : Block} (h : Memory.wf b.store) (c r : Nat) (v : Bool) : Memory.wf (b.cellWrite c r v).store :=
  Memory.wf_write h _ _

/-- Writing the value a held cell already holds changes nothing (R38, R65). -/
theorem cellWrite_same_value {b : Block} (hwf : Memory.wf b.store) {c r : Nat}
    (hheld : (Memory.read? b.store (b.byteAddr c r)).isSome = true) : b.cellWrite c r (b.cellRead c r) = b := by
  have hbyte : putBit (b.memRead (b.byteAddr c r)) (b.idx c r % 8) (b.cellRead c r) = b.memRead (b.byteAddr c r) := by
    apply BitVec.eq_of_getLsbD_eq
    intro j hj
    rw [getLsbD_putBit _ (Nat.mod_lt _ (by decide)) _ hj]
    split
    · subst_vars; rfl
    · rfl
  have hstore : (b.cellWrite c r (b.cellRead c r)).store = b.store := by
    refine Memory.ext_of_wf (wf_cellWrite hwf _ _ _) hwf fun a => ?_
    simp only [cellWrite, Memory.read?_write, hbyte]
    split
    · subst_vars
      obtain ⟨x, hx⟩ := Option.isSome_iff_exists.mp hheld
      simp [memRead, hx]
    · rfl
  calc b.cellWrite c r (b.cellRead c r) = { b with store := (b.cellWrite c r (b.cellRead c r)).store } := rfl
    _ = b := by rw [hstore]

/-- Two inversions of a held cell restore the block (R66). -/
theorem cellInvert_cellInvert {b : Block} (hwf : Memory.wf b.store) {c r : Nat} (hc : c < b.w.toNat)
    (hheld : (Memory.read? b.store (b.byteAddr c r)).isSome = true) : (b.cellInvert c r).cellInvert c r = b := by
  have hread : (b.cellInvert c r).cellRead c r = !b.cellRead c r := b.cellRead_cellWrite_same c r _ hc
  have hmem : (b.cellInvert c r).memRead (b.byteAddr c r) =
      putBit (b.memRead (b.byteAddr c r)) (b.idx c r % 8) (!b.cellRead c r) := by
    simp [cellInvert, memRead_cellWrite]
  have hwf2 : Memory.wf ((b.cellInvert c r).cellInvert c r).store := wf_cellWrite (wf_cellWrite hwf _ _ _) _ _ _
  have hstore : ((b.cellInvert c r).cellInvert c r).store = b.store := by
    refine Memory.ext_of_wf hwf2 hwf fun a => ?_
    by_cases ha : a = b.byteAddr c r
    · subst ha
      have h1 : Memory.read? ((b.cellInvert c r).cellInvert c r).store (b.byteAddr c r) =
          some (putBit ((b.cellInvert c r).memRead (b.byteAddr c r)) (b.idx c r % 8) (b.cellRead c r)) := by
        rw [cellInvert, hread]
        simp only [Bool.not_not]
        exact Memory.read?_write_same _ _ _
      rw [h1, hmem]
      obtain ⟨x, hx⟩ := Option.isSome_iff_exists.mp hheld
      rw [hx]
      congr 1
      apply BitVec.eq_of_getLsbD_eq
      intro j hj
      rw [getLsbD_putBit _ (Nat.mod_lt _ (by decide)) _ hj, getLsbD_putBit _ (Nat.mod_lt _ (by decide)) _ hj]
      have hbyte : b.memRead (b.byteAddr c r) = x := by simp [memRead, hx]
      split_ifs with hjk
      · rw [hjk, cellRead, hbyte]
      · rw [hbyte]
    · have h2 : Memory.read? ((b.cellInvert c r).cellInvert c r).store a = Memory.read? (b.cellInvert c r).store a :=
        Memory.read?_write_other _ _ ha
      rw [h2]
      exact Memory.read?_write_other _ _ ha
  calc (b.cellInvert c r).cellInvert c r = { b with store := ((b.cellInvert c r).cellInvert c r).store } := rfl
    _ = b := by rw [hstore]

end Sys2Proof.Machine.Block
end

