-- ==== Sys2Proof/Laws/Parity.lean ====
section
/-! SUPPORT. The laws of the parity trees, the labels and the one-hot encoder. -/

namespace Sys2Proof.Machine

@[simp] theorem parityOf_nil : parityOf [] = false := rfl

@[simp] theorem parityOf_cons (x : Bool) (l : List Bool) : parityOf (x :: l) = Bool.xor x (parityOf l) := rfl

theorem parityOf_append (l l' : List Bool) : parityOf (l ++ l') = Bool.xor (parityOf l) (parityOf l') := by
  induction l with
  | nil => simp
  | cons x l ih => simp [ih]

/-- A parity tree computes the sum mod 2 (R73, R74). -/
theorem toNat_parityOf (l : List Bool) : (parityOf l).toNat = (l.map Bool.toNat).sum % 2 := by
  induction l with
  | nil => rfl
  | cons x l ih =>
    have h : (Bool.xor x (parityOf l)).toNat = (x.toNat + (parityOf l).toNat) % 2 := by
      cases x <;> cases parityOf l <;> rfl
    rw [parityOf_cons, h, ih, List.map_cons, List.sum_cons, Nat.add_mod_mod]

/-- Exclusive-or of a pointwise exclusive-or. -/
theorem parityOf_map_xor {α : Type} (l : List α) (f g : α → Bool) :
    parityOf (l.map fun a => Bool.xor (f a) (g a)) = Bool.xor (parityOf (l.map f)) (parityOf (l.map g)) := by
  induction l with
  | nil => rfl
  | cons a l ih =>
    simp only [List.map_cons, parityOf_cons, ih]
    cases f a <;> cases g a <;> cases parityOf (l.map f) <;> cases parityOf (l.map g) <;> rfl

/-- The parity of a one-hot indicator over `0 .. n-1`. -/
theorem parityOf_indicator (n k : Nat) : parityOf ((List.range n).map fun j => decide (j = k)) = decide (k < n) := by
  induction n with
  | zero => simp
  | succ n ih =>
    rw [List.range_succ, List.map_append, parityOf_append, ih]
    by_cases h : n = k
    · subst h; simp
    · by_cases h2 : k < n
      · have : k < n + 1 := by omega
        simp [h, h2, this]
      · have : ¬ k < n + 1 := by omega
        simp [h, h2, this]

theorem parityOf_false {α : Type} (l : List α) : parityOf (l.map fun _ => false) = false := by
  induction l with
  | nil => rfl
  | cons a l ih => simpa using ih

theorem getLsbD_labelOf (n : Nat) (f : Nat → Bool) {i : Nat} (hi : i < 8) :
    (labelOf n f).getLsbD i = (decide (i < n) && f i) := by
  simp [labelOf, hi]

theorem labelOf_congr {n : Nat} {f g : Nat → Bool} (h : ∀ i < n, f i = g i) : labelOf n f = labelOf n g := by
  apply BitVec.eq_of_getLsbD_eq
  intro i hi
  rw [getLsbD_labelOf n f hi, getLsbD_labelOf n g hi]
  by_cases hn : i < n
  · simp [hn, h i hn]
  · simp [hn]

/-- Two labels differ by the pointwise difference of their bits. -/
theorem labelOf_xor (n : Nat) (f g : Nat → Bool) :
    labelOf n f ^^^ labelOf n g = labelOf n fun i => Bool.xor (f i) (g i) := by
  apply BitVec.eq_of_getLsbD_eq
  intro i hi
  rw [BitVec.getLsbD_xor, getLsbD_labelOf n f hi, getLsbD_labelOf n g hi, getLsbD_labelOf n _ hi]
  by_cases hn : i < n <;> simp [hn]

/-- A label with one bit is a shifted one. -/
theorem labelOf_indicator {n k : Nat} (hk : k < n) : labelOf n (fun i => decide (i = k)) = 1#8 <<< k := by
  apply BitVec.eq_of_getLsbD_eq
  intro i hi
  rw [getLsbD_labelOf n _ hi, BitVec.getLsbD_shiftLeft]
  rcases Nat.lt_trichotomy i k with h | h | h
  · have h1 : i ≠ k := by omega
    simp [hi, h, h1]
  · subst h; simp [hi, hk]
  · have h1 : ¬ i < k := by omega
    have h2 : i ≠ k := by omega
    have h3 : i - k ≠ 0 := by omega
    simp [hi, h1, h2, h3]

theorem labelOf_false (n : Nat) : labelOf n (fun _ => false) = 0 := by
  apply BitVec.eq_of_getLsbD_eq
  intro i hi
  simp [getLsbD_labelOf n _ hi]

theorem popcount8_eq_sum (v : Field) : popcount8 v = ((List.range 8).map fun i => (v.getLsbD i).toNat).sum := by
  have h : ∀ l : List Nat, (l.countP fun i => v.getLsbD i) = (l.map fun i => (v.getLsbD i).toNat).sum := by
    intro l
    induction l with
    | nil => rfl
    | cons a l ih =>
      rw [List.countP_cons, ih, List.map_cons, List.sum_cons, Nat.add_comm]
      cases v.getLsbD a <;> rfl
  exact h _

/-- The parity of a label's bits. -/
def labelParity (v : Field) : Bool := parityOf ((List.range 8).map fun i => v.getLsbD i)

theorem popcount8_mod_two (v : Field) : popcount8 v % 2 = (labelParity v).toNat := by
  rw [popcount8_eq_sum, labelParity, toNat_parityOf, List.map_map]
  rfl

/-- `CombinedParity` through the two reducers (R78). -/
theorem combinedParity_eq (a b : Field) :
    combinedParity a b = if labelParity a ≠ labelParity b then .mismatched else tri (labelParity a) := by
  simp only [combinedParity, popcount8_mod_two]
  cases labelParity a <;> cases labelParity b <;> rfl

theorem labelParity_xor (a b : Field) : labelParity (a ^^^ b) = Bool.xor (labelParity a) (labelParity b) := by
  simp only [labelParity, BitVec.getLsbD_xor]
  exact parityOf_map_xor _ _ _

/-- The parity of a label is the parity of its first `n` bits: the others are 0 (R90). -/
theorem labelParity_labelOf {n : Nat} (hn : n ≤ 8) (f : Nat → Bool) :
    labelParity (labelOf n f) = parityOf ((List.range n).map f) := by
  have h1 : ((List.range 8).map fun i => (labelOf n f).getLsbD i) =
      (List.range 8).map fun i => decide (i < n) && f i :=
    List.map_congr_left fun i hi => getLsbD_labelOf n f (List.mem_range.mp hi)
  have h2 : ∀ m, parityOf ((List.range (n + m)).map fun i => decide (i < n) && f i) =
      parityOf ((List.range n).map f) := by
    intro m
    induction m with
    | zero =>
      congr 1
      exact List.map_congr_left fun i hi => by simp [show i < n from List.mem_range.mp hi]
    | succ m ih =>
      rw [← Nat.add_assoc, List.range_succ, List.map_append, parityOf_append, ih]
      simp
  have h3 := h2 (8 - n)
  rw [Nat.add_sub_cancel' hn] at h3
  rw [labelParity, h1, h3]

theorem getLsbD_one_shiftLeft {k i : Nat} (hk : k < 8) (hi : i < 8) : (1#8 <<< k).getLsbD i = decide (i = k) := by
  rw [← labelOf_indicator hk, getLsbD_labelOf 8 _ hi]
  simp [hi]

theorem popcount8_zero : popcount8 0 = 0 := by decide

theorem popcount8_one_shiftLeft {k : Nat} (hk : k < 8) : popcount8 (1#8 <<< k) = 1 := by
  interval_cases k <;> decide

theorem onehotIndex8_one_shiftLeft {k : Nat} (hk : k < 8) : onehotIndex8 (1#8 <<< k) = k := by
  interval_cases k <;> decide

theorem popcount8_eq_zero : ∀ v : Field, popcount8 v = 0 ↔ v = 0 := by decide +revert

theorem popcount8_eq_one : ∀ v : Field, popcount8 v = 1 ↔ ∃ k < 8, v = 1#8 <<< k := by decide +revert

end Sys2Proof.Machine
end

