-- ==== Sys2Proof/Laws/Codec.lean ====
section
/-! SUPPORT. The laws of the codec: every mutation is a list of cell writes, what drawing and filling leave in each cell, and on
which cells the two checksums depend. -/

namespace Sys2Proof.Machine

/-- Exchange of the two exclusive-ors over a square. -/
theorem parityOf_swap (m n : Nat) (f : Nat → Nat → Bool) :
    parityOf ((List.range m).map fun i => parityOf ((List.range n).map fun j => f i j)) =
      parityOf ((List.range n).map fun j => parityOf ((List.range m).map fun i => f i j)) := by
  induction m with
  | zero => exact (parityOf_false (List.range n)).symm
  | succ m ih =>
    rw [List.range_succ, List.map_append, parityOf_append, ih]
    simp only [List.map_append, parityOf_append, List.map_cons, List.map_nil, parityOf_cons, parityOf_nil, Bool.xor_false]
    rw [parityOf_map_xor]

namespace Block

/-! ## Lists of cell writes -/

/-- A list of cell writes `(c, r, v)`, one after the other. -/
def writes (b : Block) (l : List (Nat × Nat × Bool)) : Block := l.foldl (fun b' x => b'.cellWrite x.1 x.2.1 x.2.2) b

@[simp] theorem writes_nil (b : Block) : b.writes [] = b := rfl

@[simp] theorem writes_cons (b : Block) (x : Nat × Nat × Bool) (l : List (Nat × Nat × Bool)) :
    b.writes (x :: l) = (b.cellWrite x.1 x.2.1 x.2.2).writes l := rfl

theorem writes_append (b : Block) (l l' : List (Nat × Nat × Bool)) : b.writes (l ++ l') = (b.writes l).writes l' :=
  List.foldl_append

@[simp] theorem writes_valid (b : Block) (l : List (Nat × Nat × Bool)) : (b.writes l).valid = b.valid := by
  induction l generalizing b with
  | nil => rfl
  | cons x l ih => simp [ih]

@[simp] theorem writes_w (b : Block) (l : List (Nat × Nat × Bool)) : (b.writes l).w = b.w := by
  induction l generalizing b with
  | nil => rfl
  | cons x l ih => simp [ih]

@[simp] theorem writes_h (b : Block) (l : List (Nat × Nat × Bool)) : (b.writes l).h = b.h := by
  induction l generalizing b with
  | nil => rfl
  | cons x l ih => simp [ih]

@[simp] theorem writes_fault (b : Block) (l : List (Nat × Nat × Bool)) : (b.writes l).fault = b.fault := by
  induction l generalizing b with
  | nil => rfl
  | cons x l ih => simp [ih]

@[simp] theorem writes_storeBytes (b : Block) (l : List (Nat × Nat × Bool)) :
    (b.writes l).storeBytes = b.storeBytes := by
  induction l generalizing b with
  | nil => rfl
  | cons x l ih => simp [ih]

@[simp] theorem writes_size (b : Block) (l : List (Nat × Nat × Bool)) : (b.writes l).size = b.size := by
  simp [size]

@[simp] theorem writes_byteAddr (b : Block) (l : List (Nat × Nat × Bool)) (c r : Nat) :
    (b.writes l).byteAddr c r = b.byteAddr c r := by
  simp [byteAddr, idx]

theorem readable_writes {b : Block} (h : b.Readable) (l : List (Nat × Nat × Bool)) : (b.writes l).Readable := by
  induction l generalizing b with
  | nil => exact h
  | cons x l ih => exact ih (readable_cellWrite h _ _ _)

theorem wf_writes {b : Block} (h : Memory.wf b.store) (l : List (Nat × Nat × Bool)) : Memory.wf (b.writes l).store := by
  induction l generalizing b with
  | nil => exact h
  | cons x l ih => exact ih (wf_cellWrite h _ _ _)

/-- A cell after a list of writes: the last one to it, else what it was (R39 (b)). -/
theorem cellRead_writes (b : Block) (l : List (Nat × Nat × Bool)) (hl : ∀ x ∈ l, x.1 < b.w.toNat) {c r : Nat}
    (hc : c < b.w.toNat) :
    (b.writes l).cellRead c r = l.foldl (fun v x => if x.1 = c ∧ x.2.1 = r then x.2.2 else v) (b.cellRead c r) := by
  induction l generalizing b with
  | nil => rfl
  | cons x l ih =>
    rw [writes_cons, ih (b.cellWrite x.1 x.2.1 x.2.2) (fun y hy => hl y (by simp [hy])) hc, List.foldl_cons,
      cellRead_cellWrite b _ _ _ (hl x (by simp)) hc]
    congr 1
    by_cases h : c = x.1 ∧ r = x.2.1
    · simp [h]
    · have : ¬(x.1 = c ∧ x.2.1 = r) := fun h' => h ⟨h'.1.symm, h'.2.symm⟩
      simp [h, this]

/-- The bytes outside the written cells keep what they held. -/
theorem read?_writes_other (b : Block) (l : List (Nat × Nat × Bool)) {a : Nat}
    (h : ∀ x ∈ l, a ≠ b.byteAddr x.1 x.2.1) : Memory.read? (b.writes l).store a = Memory.read? b.store a := by
  induction l generalizing b with
  | nil => rfl
  | cons x l ih =>
    rw [writes_cons, ih (b.cellWrite x.1 x.2.1 x.2.2) fun y hy => h y (by simp [hy]), read?_cellWrite_other b _ _ _ (h x (by simp))]

/-- Bits that belong to no written cell keep their value. -/
theorem bit_writes_other (b : Block) (l : List (Nat × Nat × Bool)) {i : Nat} (h : ∀ x ∈ l, i ≠ b.idx x.1 x.2.1) :
    ((b.writes l).memRead (i / 8)).getLsbD (i % 8) = (b.memRead (i / 8)).getLsbD (i % 8) := by
  induction l generalizing b with
  | nil => rfl
  | cons x l ih =>
    rw [writes_cons, ih (b.cellWrite x.1 x.2.1 x.2.2) fun y hy => h y (by simp [hy]), bit_cellWrite, if_neg (h x (by simp))]

/-- The addresses a list of in-range writes can add are those of the image. -/
theorem mem_store_writes {b : Block} {l : List (Nat × Nat × Bool)}
    (hl : ∀ x ∈ l, x.1 < b.w.toNat ∧ x.2.1 < b.h.toNat) {e : Host.Cell} (he : e ∈ (b.writes l).store) :
    e.1 < b.usedBytes ∨ e ∈ b.store := by
  induction l generalizing b with
  | nil => exact .inr he
  | cons x l ih =>
    have h := ih (b := b.cellWrite x.1 x.2.1 x.2.2) (fun y hy => hl y (by simp [hy])) he
    rcases h with h | h
    · exact .inl h
    · rcases Memory.mem_write h with rfl | h
      · exact .inl (b.byteAddr_lt_usedBytes (hl x (by simp)).1 (hl x (by simp)).2)
      · exact .inr h

/-! ## Drawing, filling and flipping as lists of writes -/

/-- The writes of `DrawChecksum` (R79). -/
def drawList (n : Nat) (lc lr : Field) (bit : Bool) : List (Nat × Nat × Bool) :=
  ((List.range n).flatMap fun i => [(n, i, lc.getLsbD i), (i, n, lr.getLsbD i)]) ++ [(n, n, bit)]

/-- The writes of RENDER's fill (R93). -/
def fillList (n : Nat) (value : Value) : List (Nat × Nat × Bool) :=
  (List.range (n * n)).map fun i => (i % n, i / n, value.getLsbD i)

theorem drawChecksum_eq_writes (b : Block) (lc lr : Field) (bit : Bool) :
    b.drawChecksum lc lr bit = b.writes (drawList b.size lc lr bit) := by
  have h : ∀ (l : List Nat) (n : Nat) (b : Block), l.foldl (fun b' i => b'.drawPair n lc lr i) b =
      b.writes (l.flatMap fun i => [(n, i, lc.getLsbD i), (i, n, lr.getLsbD i)]) := by
    intro l n
    induction l with
    | nil => intro b; rfl
    | cons i l ih => intro b; simp only [List.foldl_cons, ih]; rfl
  rw [drawChecksum, h, drawList, writes_append]
  rfl

theorem fillData_eq_writes (b : Block) (n : Nat) (value : Value) : b.fillData n value = b.writes (fillList n value) := by
  rw [fillData, fillList, writes, List.foldl_map]

theorem cellInvert_eq_writes (b : Block) (c r : Nat) : b.cellInvert c r = b.writes [(c, r, !b.cellRead c r)] := rfl

theorem drawList_le {n : Nat} {lc lr : Field} {bit : Bool} {x : Nat × Nat × Bool} (h : x ∈ drawList n lc lr bit) :
    x.1 ≤ n ∧ x.2.1 ≤ n ∧ (x.1 = n ∨ x.2.1 = n) := by
  simp only [drawList, List.mem_append, List.mem_flatMap, List.mem_range, List.mem_cons, List.not_mem_nil, or_false] at h
  rcases h with ⟨i, hi, rfl | rfl⟩ | rfl <;> simp <;> omega

theorem fillList_lt {n : Nat} {value : Value} {x : Nat × Nat × Bool} (h : x ∈ fillList n value) : x.1 < n ∧ x.2.1 < n := by
  simp only [fillList, List.mem_map, List.mem_range] at h
  obtain ⟨i, hi, rfl⟩ := h
  have hn : 0 < n := Nat.pos_of_ne_zero fun h0 => by simp [h0] at hi
  exact ⟨Nat.mod_lt _ hn, Nat.div_lt_of_lt_mul hi⟩

/-- Every cell after `DrawChecksum` (R34, R36, R79). -/
theorem cellRead_drawChecksum (b : Block) (lc lr : Field) (bit : Bool) {c r : Nat} (hc : c < b.w.toNat) :
    (b.drawChecksum lc lr bit).cellRead c r =
      if c = b.size ∧ r = b.size then bit
      else if c = b.size ∧ r < b.size then lc.getLsbD r
      else if r = b.size ∧ c < b.size then lr.getLsbD c
      else b.cellRead c r := by
  have hn : b.size < b.w.toNat := by simp only [size]; omega
  have hfold : ∀ k ≤ b.size,
      ((List.range k).foldl (fun b' i => b'.drawPair b.size lc lr i) b).w = b.w ∧
      ∀ c r, c < b.w.toNat → ((List.range k).foldl (fun b' i => b'.drawPair b.size lc lr i) b).cellRead c r =
        if c = b.size ∧ r < k then lc.getLsbD r
        else if r = b.size ∧ c < k then lr.getLsbD c
        else b.cellRead c r := by
    intro k
    induction k with
    | zero => intro _; simp
    | succ k ih =>
      intro hk
      obtain ⟨hw, hcell⟩ := ih (by omega)
      rw [List.range_succ, List.foldl_append]
      generalize (List.range k).foldl (fun b' i => b'.drawPair b.size lc lr i) b = b1 at hw hcell
      simp only [List.foldl_cons, List.foldl_nil, drawPair]
      refine ⟨hw, fun c r hc => ?_⟩
      rw [cellRead_cellWrite _ _ _ _ (by simp only [cellWrite_w, hw]; omega) (by simp only [cellWrite_w, hw]; omega),
        cellRead_cellWrite _ _ _ _ (by rw [hw]; omega) (by rw [hw]; omega), hcell c r hc]
      split_ifs <;> first
        | rfl
        | omega
        | (congr 1; omega)
  obtain ⟨hw, hcell⟩ := hfold b.size (le_refl _)
  rw [drawChecksum, cellRead_cellWrite _ _ _ _ (by rw [hw]; omega) (by rw [hw]; omega), hcell c r hc]

/-- Every cell after RENDER's fill (R35, R93). -/
theorem cellRead_fillData (b : Block) (n : Nat) (value : Value) (hn : n ≤ b.w.toNat) {c r : Nat} (hc : c < b.w.toNat) :
    (b.fillData n value).cellRead c r =
      if c < n ∧ r < n then value.getLsbD (r * n + c) else b.cellRead c r := by
  rcases Nat.eq_zero_or_pos n with rfl | hpos
  · simp [fillData]
  have hfold : ∀ k ≤ n * n,
      ((List.range k).foldl (fun b' i => b'.cellWrite (i % n) (i / n) (value.getLsbD i)) b).w = b.w ∧
      ∀ c r, c < b.w.toNat → ((List.range k).foldl (fun b' i => b'.cellWrite (i % n) (i / n) (value.getLsbD i)) b).cellRead c r =
        if c < n ∧ r * n + c < k then value.getLsbD (r * n + c) else b.cellRead c r := by
    intro k
    induction k with
    | zero => intro _; simp
    | succ k ih =>
      intro hk
      obtain ⟨hw, hcell⟩ := ih (by omega)
      rw [List.range_succ, List.foldl_append]
      generalize (List.range k).foldl (fun b' i => b'.cellWrite (i % n) (i / n) (value.getLsbD i)) b = b1 at hw hcell
      simp only [List.foldl_cons, List.foldl_nil]
      refine ⟨hw, fun c r hc => ?_⟩
      have hmod : k % n < n := Nat.mod_lt _ hpos
      rw [cellRead_cellWrite _ _ _ _ (by rw [hw]; omega) (by rw [hw]; omega), hcell c r hc]
      have hdm : n * (k / n) + k % n = k := Nat.div_add_mod k n
      by_cases h : c = k % n ∧ r = k / n
      · obtain ⟨rfl, rfl⟩ := h
        have heq : k / n * n + k % n = k := by rw [Nat.mul_comm]; exact hdm
        simp [heq, hmod]
      · rw [if_neg h]
        have hne : ¬(c < n ∧ r * n + c = k) := by
          rintro ⟨hcn, rfl⟩
          apply h
          rw [Nat.mul_comm r n]
          exact ⟨by rw [Nat.mul_add_mod, Nat.mod_eq_of_lt hcn], by rw [Nat.mul_add_div hpos, Nat.div_eq_of_lt hcn]; omega⟩
        by_cases h1 : c < n ∧ r * n + c < k
        · rw [if_pos h1, if_pos ⟨h1.1, by omega⟩]
        · rw [if_neg h1, if_neg]
          rintro ⟨h2, h3⟩
          by_cases h4 : r * n + c = k
          · exact hne ⟨h2, h4⟩
          · exact h1 ⟨h2, by omega⟩
  rw [fillData, (hfold (n * n) (le_refl _)).2 c r hc]
  by_cases hcn : c < n
  · have : r * n + c < n * n ↔ r < n := by
      constructor
      · intro h
        by_contra hr
        have : n * n ≤ r * n := Nat.mul_le_mul_right n (by omega)
        omega
      · intro h
        have : (r + 1) * n ≤ n * n := Nat.mul_le_mul_right n h
        rw [Nat.add_mul] at this
        omega
    simp [hcn, this]
  · simp [hcn]

@[simp] theorem drawChecksum_valid (b : Block) (lc lr : Field) (bit : Bool) :
    (b.drawChecksum lc lr bit).valid = b.valid := by simp [drawChecksum_eq_writes]
@[simp] theorem drawChecksum_w (b : Block) (lc lr : Field) (bit : Bool) :
    (b.drawChecksum lc lr bit).w = b.w := by simp [drawChecksum_eq_writes]
@[simp] theorem drawChecksum_h (b : Block) (lc lr : Field) (bit : Bool) :
    (b.drawChecksum lc lr bit).h = b.h := by simp [drawChecksum_eq_writes]
@[simp] theorem drawChecksum_fault (b : Block) (lc lr : Field) (bit : Bool) :
    (b.drawChecksum lc lr bit).fault = b.fault := by simp [drawChecksum_eq_writes]
@[simp] theorem drawChecksum_storeBytes (b : Block) (lc lr : Field) (bit : Bool) :
    (b.drawChecksum lc lr bit).storeBytes = b.storeBytes := by simp [drawChecksum_eq_writes]
@[simp] theorem drawChecksum_size (b : Block) (lc lr : Field) (bit : Bool) :
    (b.drawChecksum lc lr bit).size = b.size := by simp [drawChecksum_eq_writes]

@[simp] theorem fillData_valid (b : Block) (n : Nat) (value : Value) : (b.fillData n value).valid = b.valid := by
  simp [fillData_eq_writes]
@[simp] theorem fillData_w (b : Block) (n : Nat) (value : Value) : (b.fillData n value).w = b.w := by
  simp [fillData_eq_writes]
@[simp] theorem fillData_h (b : Block) (n : Nat) (value : Value) : (b.fillData n value).h = b.h := by
  simp [fillData_eq_writes]
@[simp] theorem fillData_fault (b : Block) (n : Nat) (value : Value) : (b.fillData n value).fault = b.fault := by
  simp [fillData_eq_writes]
@[simp] theorem fillData_storeBytes (b : Block) (n : Nat) (value : Value) :
    (b.fillData n value).storeBytes = b.storeBytes := by simp [fillData_eq_writes]
@[simp] theorem fillData_size (b : Block) (n : Nat) (value : Value) : (b.fillData n value).size = b.size := by
  simp [fillData_eq_writes]

/-! ## What the checksums depend on -/

theorem rowPar_congr {b b' : Block} (hs : b.size = b'.size) {i : Nat}
    (h : ∀ j < b.size, b.cellRead j i = b'.cellRead j i) : b.rowPar i = b'.rowPar i := by
  rw [rowPar, rowPar, ← hs]
  congr 1
  exact List.map_congr_left fun j hj => h j (List.mem_range.mp hj)

theorem colPar_congr {b b' : Block} (hs : b.size = b'.size) {i : Nat}
    (h : ∀ j < b.size, b.cellRead i j = b'.cellRead i j) : b.colPar i = b'.colPar i := by
  rw [colPar, colPar, ← hs]
  congr 1
  exact List.map_congr_left fun j hj => h j (List.mem_range.mp hj)

/-- The expected checksum depends on the data cells only (R77, R82). -/
theorem computeChecksum_congr {b b' : Block} (hs : b.size = b'.size)
    (h : ∀ c < b.size, ∀ r < b.size, b.cellRead c r = b'.cellRead c r) : b.computeChecksum = b'.computeChecksum := by
  have h1 : labelOf b.size b.rowPar = labelOf b'.size b'.rowPar := by
    rw [← hs]
    exact labelOf_congr fun i hi => rowPar_congr hs fun j hj => h j hj i hi
  have h2 : labelOf b.size b.colPar = labelOf b'.size b'.colPar := by
    rw [← hs]
    exact labelOf_congr fun i hi => colPar_congr hs fun j hj => h i hi j hj
  simp only [computeChecksum, h1, h2]

/-- The observed checksum depends on the border only (R80, R84). -/
theorem readChecksum_congr {b b' : Block} (hs : b.size = b'.size)
    (h1 : ∀ i < b.size, b.cellRead b.size i = b'.cellRead b.size i)
    (h2 : ∀ i < b.size, b.cellRead i b.size = b'.cellRead i b.size)
    (h3 : b.cellRead b.size b.size = b'.cellRead b.size b.size) : b.readChecksum = b'.readChecksum := by
  have e1 : labelOf b.size (fun i => b.cellRead b.size i) = labelOf b'.size fun i => b'.cellRead b'.size i := by
    rw [← hs]; exact labelOf_congr h1
  have e2 : labelOf b.size (fun i => b.cellRead i b.size) = labelOf b'.size fun i => b'.cellRead i b'.size := by
    rw [← hs]; exact labelOf_congr h2
  simp only [readChecksum, e1, e2, h3]
  rw [hs]

theorem size_lt {b : Block} (h : b.IsBarcode) : b.size < b.w.toNat := by
  have := h.2.2.1
  simp only [Config.barcodeMin] at this
  simp only [size]
  omega

theorem size_le {b : Block} (h : b.IsBarcode) : b.size ≤ 8 := by
  have := h.2.2.2
  simp only [Config.barcodeMax] at this
  simp only [size]
  omega

theorem size_pos {b : Block} (h : b.IsBarcode) : 1 ≤ b.size := by
  have := h.2.2.1
  simp only [Config.barcodeMin] at this
  simp only [size]
  omega

theorem width_eq {b : Block} (h : b.IsBarcode) : b.w.toNat = b.size + 1 ∧ b.h.toNat = b.size + 1 := by
  have h1 := h.2.2.1
  simp only [Config.barcodeMin] at h1
  have h2 : b.w.toNat = b.h.toNat := congrArg BitVec.toNat h.2.1
  simp only [size]
  omega

theorem isBarcode_writes {b : Block} (h : b.IsBarcode) (l : List (Nat × Nat × Bool)) : (b.writes l).IsBarcode := by
  simpa [IsBarcode] using h

end Block

end Sys2Proof.Machine
end

