-- ==== Sys2Proof/Laws/Ops.lean ====
section
/-! SUPPORT. One lemma per shared operation: when each common check passes and what it answers when it does not, and the response
words as the formula of R47. -/

namespace Sys2Proof.Machine

/-! ## Responses -/

theorem packResponse_eq (status : BitVec 4) (ra rb : Field) (rc : BitVec 2) :
    packResponse status ra rb rc = rspWord status.toNat ra.toNat rb.toNat rc.toNat := by
  have hs := status.isLt
  have ha := ra.isLt
  have hb := rb.isLt
  have hc := rc.isLt
  apply BitVec.eq_of_getLsbD_eq
  intro i hi
  simp only [packResponse, rspWord, BitVec.getLsbD_append, BitVec.getLsbD_ofNat, Nat.testBit_or, Nat.testBit_shiftLeft,
    BitVec.testBit_toNat]
  interval_cases i <;> simp

theorem okResponse_eq (ra rb : Field) (rc : BitVec 2) : okResponse ra rb rc = rspWord 0 ra.toNat rb.toNat rc.toNat :=
  packResponse_eq 0 ra rb rc

theorem allocErrResponse_eq : allocErrResponse = rspWord 1 0 0 0 := packResponse_eq 1 0 0 0

theorem faultResponse_eq (f : BitVec 4) : faultResponse f = rspWord 2 f.toNat 0 0 := by
  rw [faultResponse, packResponse_eq]
  simp [Nat.mod_eq_of_lt (show f.toNat < 256 by have := f.isLt; omega)]

theorem getLsbD_packResponse (status : BitVec 4) (ra rb : Field) (rc : BitVec 2) (i : Nat) :
    (packResponse status ra rb rc).getLsbD i =
      if i < 10 then false
      else if i < 12 then rc.getLsbD (i - 10)
      else if i < 20 then rb.getLsbD (i - 12)
      else if i < 28 then ra.getLsbD (i - 20)
      else status.getLsbD (i - 28) := by
  simp only [packResponse, BitVec.getLsbD_append]
  split_ifs with h1 h2 h3 h4 h5 h6 h7 h8 <;> first
    | omega
    | simp
    | congr 1

theorem status_packResponse (status : BitVec 4) (ra rb : Field) (rc : BitVec 2) :
    (packResponse status ra rb rc).extractLsb' 28 4 = status := by
  apply BitVec.eq_of_getLsbD_eq
  intro i hi
  rw [BitVec.getLsbD_extractLsb', getLsbD_packResponse, if_neg (by omega), if_neg (by omega), if_neg (by omega),
    if_neg (by omega)]
  simp [hi]

theorem ra_packResponse (status : BitVec 4) (ra rb : Field) (rc : BitVec 2) :
    (packResponse status ra rb rc).extractLsb' 20 8 = ra := by
  apply BitVec.eq_of_getLsbD_eq
  intro i hi
  rw [BitVec.getLsbD_extractLsb', getLsbD_packResponse, if_neg (by omega), if_neg (by omega), if_neg (by omega),
    if_pos (by omega)]
  simp [hi]

theorem rb_packResponse (status : BitVec 4) (ra rb : Field) (rc : BitVec 2) :
    (packResponse status ra rb rc).extractLsb' 12 8 = rb := by
  apply BitVec.eq_of_getLsbD_eq
  intro i hi
  rw [BitVec.getLsbD_extractLsb', getLsbD_packResponse, if_neg (by omega), if_neg (by omega), if_pos (by omega)]
  simp [hi]

theorem rc_packResponse (status : BitVec 4) (ra rb : Field) (rc : BitVec 2) :
    (packResponse status ra rb rc).extractLsb' 10 2 = rc := by
  apply BitVec.eq_of_getLsbD_eq
  intro i hi
  rw [BitVec.getLsbD_extractLsb', getLsbD_packResponse, if_neg (by omega), if_pos (by omega)]
  simp [hi]

theorem low_packResponse (status : BitVec 4) (ra rb : Field) (rc : BitVec 2) :
    (packResponse status ra rb rc).extractLsb' 0 10 = 0 := by
  apply BitVec.eq_of_getLsbD_eq
  intro i hi
  rw [BitVec.getLsbD_extractLsb', getLsbD_packResponse, if_pos (by omega)]
  simp

theorem toNat_cellResult (v : Bool) : (cellResult v).toNat = v.toNat := by cases v <;> rfl

/-! ## Ending a command -/

theorem respond_eq (s : State) (b : Block) (rsp : Word) : respond s b rsp = .next (answered s b rsp) := rfl

theorem allocErr_eq (s : State) : allocErr s = .next (answered s s.block (rspWord 1 0 0 0)) := by
  rw [allocErr, allocErrResponse_eq, respond_eq]

theorem raise_eq (s : State) (c : Cause) :
    raise s c = .next (answered s (s.block.withFault c.code) (rspWord 2 c.code.toNat 0 0)) := by
  rw [raise, faultResponse_eq, respond_eq]
  rfl

theorem answerFaulted_eq (s : State) :
    answerFaulted s = .next (answered s s.block (rspWord 2 s.block.fault.toNat 0 0)) := by
  rw [answerFaulted, faultResponse_eq, respond_eq]

@[simp] theorem answered_block (s : State) (b : Block) (rsp : Word) : (answered s b rsp).block = b := rfl
@[simp] theorem answered_wdata (s : State) (b : Block) (rsp : Word) : (answered s b rsp).wdata = s.wdata := rfl
@[simp] theorem answered_pending (s : State) (b : Block) (rsp : Word) : (answered s b rsp).pending = s.pending := rfl
@[simp] theorem answered_responses (s : State) (b : Block) (rsp : Word) :
    (answered s b rsp).responses = rsp :: s.responses := rfl
@[simp] theorem withFault_valid (b : Block) (f : BitVec 4) : (b.withFault f).valid = b.valid := rfl
@[simp] theorem withFault_w (b : Block) (f : BitVec 4) : (b.withFault f).w = b.w := rfl
@[simp] theorem withFault_h (b : Block) (f : BitVec 4) : (b.withFault f).h = b.h := rfl
@[simp] theorem withFault_fault (b : Block) (f : BitVec 4) : (b.withFault f).fault = f := rfl
@[simp] theorem withFault_store (b : Block) (f : BitVec 4) : (b.withFault f).store = b.store := rfl
@[simp] theorem withFault_storeBytes (b : Block) (f : BitVec 4) : (b.withFault f).storeBytes = b.storeBytes := rfl

theorem code_ne_zero (c : Cause) : c.code ≠ 0 := by cases c <;> decide

theorem code_le (c : Cause) : c.code.toNat ≤ 8 := by cases c <;> decide

/-! ## The common checks -/

variable {s : State} {k : Host.Outcome State Fault Refusal}

theorem unlessFaulted_clear (h : s.block.fault = 0) : unlessFaulted s k = k := by simp [unlessFaulted, h]

theorem unlessFaulted_faulted (h : s.block.fault ≠ 0) :
    unlessFaulted s k = .next (answered s s.block (rspWord 2 s.block.fault.toNat 0 0)) := by
  rw [unlessFaulted, if_pos h, answerFaulted_eq]

theorem withImage_ok (hf : s.block.fault = 0) (hv : s.block.valid = true) : withImage s k = k := by
  simp [withImage, unlessFaulted, hf, hv]

theorem withImage_none (hf : s.block.fault = 0) (hv : s.block.valid = false) :
    withImage s k = .next (answered s (s.block.withFault 2) (rspWord 2 2 0 0)) := by
  simp only [withImage, unlessFaulted_clear hf, hv]
  exact raise_eq s .noImage

theorem withImage_faulted (h : s.block.fault ≠ 0) :
    withImage s k = .next (answered s s.block (rspWord 2 s.block.fault.toNat 0 0)) := unlessFaulted_faulted h

theorem withCells_ok (h : s.block.Readable) : withCells s k = k := if_pos h

theorem atCell_ok (h : HasImage s) {c r : Field} (hb : inBounds s.block c r = true) : atCell s c r k = k := by
  rw [atCell, withImage_ok h.1 h.2.1, if_pos hb, withCells_ok h.2.2]

theorem atCell_out (hf : s.block.fault = 0) (hv : s.block.valid = true) {c r : Field}
    (hb : inBounds s.block c r = false) :
    atCell s c r k = .next (answered s (s.block.withFault 3) (rspWord 2 3 0 0)) := by
  rw [atCell, withImage_ok hf hv, hb]
  exact raise_eq s .bounds

theorem withBarcode_ok (hf : s.block.fault = 0) (hb : s.block.IsBarcode) : withBarcode s k = k := by
  rw [withBarcode, withImage_ok hf hb.1, if_pos hb]

theorem withBarcode_shape (hf : s.block.fault = 0) (hv : s.block.valid = true) (hb : ¬ s.block.IsBarcode) :
    withBarcode s k = .next (answered s (s.block.withFault 7) (rspWord 2 7 0 0)) := by
  rw [withBarcode, withImage_ok hf hv, if_neg hb]
  exact raise_eq s .constrShape

theorem inBounds_iff {b : Block} {c r : Field} :
    inBounds b c r = true ↔ c.toNat < b.w.toNat ∧ r.toNat < b.h.toNat := by
  simp [inBounds, BitVec.lt_def]

theorem sideLegal_iff {n : Field} : sideLegal n = true ↔ 1 ≤ n.toNat ∧ n.toNat ≤ 8 := by
  simp only [sideLegal, Config.sizeMin, Config.sizeMax, Bool.and_eq_true, decide_eq_true_eq]

/-- RENDER's value precondition as a bound on the number (R92). -/
theorem valueFits_iff {n : Field} {value : Value} :
    valueFits n value = true ↔ value.toNat < 2 ^ (n.toNat * n.toNat) := by
  simp only [valueFits, Config.sizeMax, Bool.or_eq_true, decide_eq_true_eq]
  have hlt := value.isLt
  have hshift : value >>> (n.toNat * n.toNat) = 0 ↔ value.toNat < 2 ^ (n.toNat * n.toNat) := by
    rw [← BitVec.toNat_inj, BitVec.toNat_ushiftRight, Nat.shiftRight_eq_div_pow]
    simp [Nat.div_eq_zero_iff]
  rw [hshift]
  constructor
  · rintro (h | h)
    · rw [h]; exact hlt
    · exact h
  · exact .inr

end Sys2Proof.Machine
end

