-- ==== Sys2Proof/Laws/Step.lean ====
section
/-! SUPPORT. What a command can do, said once: the ways `exec` can end, from which every invariant follows. -/

namespace Sys2Proof.Machine

/-- The ways one command can end: the block it leaves and the response it gives. -/
inductive Answer (b : Block) : Block → Word → Prop where
  /-- A result, nothing changed. -/
  | result (ra rb : Field) (rc : BitVec 2) (hf : b.fault = 0) (hv : b.valid = true) : Answer b b (okResponse ra rb rc)
  /-- ALLOC_ERR (R128). -/
  | allocErr (hf : b.fault = 0) : Answer b b (rspWord 1 0 0 0)
  /-- A block faulted earlier (R127). -/
  | faulted (hf : b.fault ≠ 0) : Answer b b (rspWord 2 b.fault.toNat 0 0)
  /-- A fault was recorded (R126). -/
  | raised (c : Cause) (hf : b.fault = 0) : Answer b (b.withFault c.code) (rspWord 2 c.code.toNat 0 0)
  /-- FREE (R62). -/
  | freed (hf : b.fault = 0) (hv : b.valid = true) :
      Answer b { b with valid := false, w := 0, h := 0 } (okResponse 0 0 0)
  /-- Cells of the current image were written. -/
  | wrote (l : List (Nat × Nat × Bool)) (ra rb : Field) (rc : BitVec 2) (hf : b.fault = 0) (hv : b.valid = true)
      (hr : b.Readable) (hl : ∀ x ∈ l, x.1 < b.w.toNat ∧ x.2.1 < b.h.toNat) :
      Answer b (b.writes l) (okResponse ra rb rc)
  /-- A new image was begun and cells of it written (R61, R93). -/
  | began (w h : Field) (l : List (Nat × Nat × Bool)) (hf : b.fault = 0) (hw : w ≠ 0) (hh : h ≠ 0)
      (hfit : bytesFor w.toNat h.toNat ≤ b.storeBytes) (hl : ∀ x ∈ l, x.1 < w.toNat ∧ x.2.1 < h.toNat) :
      Answer b ((b.newImage w h).writes l) (okResponse 0 0 0)

/-- The form of an answer: one response more, the ports untouched, and one of the endings above. -/
def Effect (s t : State) : Prop := ∃ b rsp, t = answered s b rsp ∧ Answer s.block b rsp

variable {s t : State} {k : Host.Outcome State Fault Refusal}

theorem effect_raise {c : Cause} (hf : s.block.fault = 0) (h : raise s c = .next t) : Effect s t := by
  rw [raise_eq] at h
  cases h
  exact ⟨_, _, rfl, .raised c hf⟩

theorem effect_unlessFaulted (hk : s.block.fault = 0 → k = .next t → Effect s t) (h : unlessFaulted s k = .next t) :
    Effect s t := by
  by_cases hf : s.block.fault = 0
  · rw [unlessFaulted_clear hf] at h
    exact hk hf h
  · rw [unlessFaulted_faulted hf] at h
    cases h
    exact ⟨_, _, rfl, .faulted hf⟩

theorem effect_withImage (hk : s.block.fault = 0 → s.block.valid = true → k = .next t → Effect s t)
    (h : withImage s k = .next t) : Effect s t := by
  refine effect_unlessFaulted (fun hf h => ?_) h
  split_ifs at h with hv
  · exact hk hf hv h
  · exact effect_raise hf h

theorem withCells_next (h : withCells s k = .next t) : s.block.Readable ∧ k = .next t := by
  rw [withCells] at h
  split_ifs at h with hr
  exact ⟨hr, h⟩

theorem effect_atCell {c r : Field}
    (hk : HasImage s → c.toNat < s.block.w.toNat → r.toNat < s.block.h.toNat → k = .next t → Effect s t)
    (h : atCell s c r k = .next t) : Effect s t := by
  refine effect_withImage (fun hf hv h => ?_) h
  split_ifs at h with hb
  · obtain ⟨hr, h⟩ := withCells_next h
    exact hk ⟨hf, hv, hr⟩ (inBounds_iff.mp hb).1 (inBounds_iff.mp hb).2 h
  · exact effect_raise hf h

theorem effect_withBarcode (hk : s.block.fault = 0 → s.block.IsBarcode → k = .next t → Effect s t)
    (h : withBarcode s k = .next t) : Effect s t := by
  refine effect_withImage (fun hf hv h => ?_) h
  split_ifs at h with hb
  · exact hk hf hb h
  · exact effect_raise hf h

theorem effect_result {ra rb : Field} {rc : BitVec 2} (hf : s.block.fault = 0) (hv : s.block.valid = true)
    (h : respond s s.block (okResponse ra rb rc) = .next t) : Effect s t := by
  cases h
  exact ⟨_, _, rfl, .result ra rb rc hf hv⟩

/-- The writes of a drawing are in the image. -/
theorem draw_inRange {b : Block} (hb : b.IsBarcode) (lc lr : Field) (bit : Bool) :
    ∀ x ∈ Block.drawList b.size lc lr bit, x.1 < b.w.toNat ∧ x.2.1 < b.h.toNat := by
  intro x hx
  have h1 := Block.drawList_le hx
  have h2 := Block.width_eq hb
  omega

/-- The target of the decision table is in the image (R106). -/
theorem correctionTarget_le {b : Block} {m : Bool} {c r : Nat}
    (h : correctionTarget b.size b.cErr b.rErr m = some (c, r)) : c ≤ b.size ∧ r ≤ b.size := by
  have hindex : ∀ f : Nat → Bool, popcount8 (labelOf b.size f) = 1 → onehotIndex8 (labelOf b.size f) ≤ b.size := by
    intro f hp
    obtain ⟨k, hk, hv⟩ := (popcount8_eq_one _).mp hp
    rw [hv, onehotIndex8_one_shiftLeft hk]
    have h1 := getLsbD_labelOf b.size f hk
    rw [hv, getLsbD_one_shiftLeft hk hk] at h1
    simp at h1
    omega
  have hc : popcount8 b.cErr = 1 → onehotIndex8 b.cErr ≤ b.size := by
    simp only [Block.cErr, Block.readChecksum, Block.computeChecksum, labelOf_xor]
    exact hindex _
  have hr : popcount8 b.rErr = 1 → onehotIndex8 b.rErr ≤ b.size := by
    simp only [Block.rErr, Block.readChecksum, Block.computeChecksum, labelOf_xor]
    exact hindex _
  simp only [correctionTarget] at h
  split_ifs at h with h1 h2 h3 h4 <;> cases h
  · exact ⟨hr h1.2.1, hc h1.1⟩
  · exact ⟨le_refl _, hc h2.1⟩
  · exact ⟨hr h3.2.1, le_refl _⟩
  · exact ⟨le_refl _, le_refl _⟩

/-- Every command that answers a next state has one of the effects above. -/
theorem exec_effect {i : Instr} (h : exec i s = .next t) : Effect s t := by
  cases i with
  | create w h' =>
    refine effect_unlessFaulted (fun hf h => ?_) h
    split_ifs at h with h1 h2
    · exact effect_raise hf h
    · rw [allocErr_eq] at h
      cases h
      exact ⟨_, _, rfl, .allocErr hf⟩
    · cases h
      refine ⟨_, _, rfl, ?_⟩
      have hfit : bytesFor w.toNat h'.toNat ≤ s.block.storeBytes := by simpa [Block.tooLarge] using h2
      simpa using Answer.began w h' [] hf (fun h => h1 (.inl h)) (fun h => h1 (.inr h)) hfit (by simp)
  | free =>
    refine effect_withImage (fun hf hv h => ?_) h
    cases h
    exact ⟨_, _, rfl, .freed hf hv⟩
  | size => exact effect_withImage (fun hf hv h => effect_result hf hv h) h
  | get c r => exact effect_atCell (fun hi _ _ h => effect_result hi.1 hi.2.1 h) h
  | set c r v =>
    refine effect_atCell (fun hi hc hr h => ?_) h
    cases h
    exact ⟨_, _, rfl, .wrote [(c.toNat, r.toNat, v)] 0 0 0 hi.1 hi.2.1 hi.2.2 (by simp [hc, hr])⟩
  | invert c r =>
    refine effect_atCell (fun hi hc hr h => ?_) h
    cases h
    exact ⟨_, _, rfl, .wrote [(c.toNat, r.toNat, _)] 0 0 0 hi.1 hi.2.1 hi.2.2 (by simp [hc, hr])⟩
  | csComp => exact effect_withBarcode (fun hf hb h => effect_result hf hb.1 (withCells_next h).2) h
  | csDraw lc lr b =>
    refine effect_withBarcode (fun hf hb h => ?_) h
    split_ifs at h with h1
    · exact effect_raise hf h
    · obtain ⟨hr, h⟩ := withCells_next h
      cases h
      refine ⟨_, _, rfl, ?_⟩
      rw [Block.drawChecksum_eq_writes]
      exact .wrote _ 0 0 0 hf hb.1 hr (draw_inRange hb _ _ _)
  | csRead => exact effect_withBarcode (fun hf hb h => effect_result hf hb.1 (withCells_next h).2) h
  | csRend =>
    refine effect_withBarcode (fun hf hb h => ?_) h
    obtain ⟨hr, h⟩ := withCells_next h
    split_ifs at h with h1
    · exact effect_raise hf h
    · cases h
      refine ⟨_, _, rfl, ?_⟩
      rw [Block.drawTriple, Block.drawChecksum_eq_writes]
      exact .wrote _ 0 0 0 hf hb.1 hr (draw_inRange hb _ _ _)
  | render n =>
    refine effect_unlessFaulted (fun hf h => ?_) h
    split_ifs at h with h1 h2 h3
    · exact effect_raise hf h
    · exact effect_raise hf h
    · rw [allocErr_eq] at h
      cases h
      exact ⟨_, _, rfl, .allocErr hf⟩
    · cases h
      have hn : 1 ≤ n.toNat ∧ n.toNat ≤ 8 := sideLegal_iff.mp (by simpa using h1)
      have hn1 : (n + 1).toNat = n.toNat + 1 := by
        rw [BitVec.toNat_add]
        simp
        omega
      refine ⟨_, _, rfl, ?_⟩
      rw [Block.rendered, Block.drawTriple, Block.drawChecksum_eq_writes, Block.fillData_eq_writes,
        ← Block.writes_append]
      refine .began _ _ _ hf ?_ ?_ ?_ ?_
      · intro h0; rw [h0] at hn1; simp at hn1
      · intro h0; rw [h0] at hn1; simp at hn1
      · rw [hn1]; simpa [Block.tooLarge] using h3
      · intro x hx
        rw [hn1]
        rcases List.mem_append.mp hx with hx | hx
        · have := Block.fillList_lt hx; omega
        · have := Block.drawList_le hx
          simp only [Block.size, Block.writes_w, newImage_w, hn1] at this
          omega
  | validate =>
    refine effect_withBarcode (fun hf hb h => ?_) h
    obtain ⟨hr, h⟩ := withCells_next h
    cases h
    refine ⟨_, _, rfl, ?_⟩
    cases hd : s.block.diagnose with
    | valid => exact .result _ _ _ hf hb.1
    | uncorrectable => exact .result _ _ _ hf hb.1
    | corrected c r =>
      have htarget : correctionTarget s.block.size s.block.cErr s.block.rErr s.block.bitMatches = some (c, r) := by
        simp only [Block.diagnose] at hd
        split_ifs at hd
        revert hd
        cases correctionTarget s.block.size s.block.cErr s.block.rErr s.block.bitMatches with
        | none => simp
        | some x => rintro ⟨⟩; rfl
      have h1 := correctionTarget_le htarget
      have h2 := Block.width_eq hb
      exact .wrote [(c, r, _)] _ _ _ hf hb.1 hr (by simp; omega)

end Sys2Proof.Machine
end

