-- ==== Sys2Proof/Laws/Exec.lean ====
section
/-! SUPPORT. When each command completes, and with which block: one equation per command over the model's own operations, which the
provers cite instead of unfolding `exec`. -/

namespace Sys2Proof.Machine

theorem not_tooLarge {b : Block} {w h : Nat} : b.tooLarge w h = false ↔ (w * h + 7) / 8 ≤ b.storeBytes := by
  rw [Block.tooLarge, decide_eq_false_iff_not, bytesFor]
  omega

theorem tooLarge_iff {b : Block} {w h : Nat} : b.tooLarge w h = true ↔ b.storeBytes < (w * h + 7) / 8 := by
  rw [Block.tooLarge, decide_eq_true_eq, bytesFor]

variable {s : State} {c r w h n : Field}

theorem exec_create_ok (hf : s.block.fault = 0) (hw : w ≠ 0) (hh : h ≠ 0)
    (hfit : (w.toNat * h.toNat + 7) / 8 ≤ s.block.storeBytes) :
    exec (.create w h) s = .next (answered s (s.block.newImage w h) (okResponse 0 0 0)) := by
  simp only [exec, execCreate]
  rw [unlessFaulted_clear hf, if_neg (by tauto), not_tooLarge.mpr hfit]
  rfl

theorem exec_get_ok (hi : HasImage s) (hc : c.toNat < s.block.w.toNat) (hr : r.toNat < s.block.h.toNat) :
    exec (.get c r) s =
      .next (answered s s.block (okResponse 0 0 (cellResult (s.block.cellRead c.toNat r.toNat)))) :=
  atCell_ok hi (inBounds_iff.mpr ⟨hc, hr⟩)

theorem exec_set_ok {v : Bool} (hi : HasImage s) (hc : c.toNat < s.block.w.toNat) (hr : r.toNat < s.block.h.toNat) :
    exec (.set c r v) s = .next (answered s (s.block.cellWrite c.toNat r.toNat v) (okResponse 0 0 0)) :=
  atCell_ok hi (inBounds_iff.mpr ⟨hc, hr⟩)

theorem exec_invert_ok (hi : HasImage s) (hc : c.toNat < s.block.w.toNat) (hr : r.toNat < s.block.h.toNat) :
    exec (.invert c r) s = .next (answered s (s.block.cellInvert c.toNat r.toNat) (okResponse 0 0 0)) :=
  atCell_ok hi (inBounds_iff.mpr ⟨hc, hr⟩)

theorem exec_csComp_ok (hb : HasBarcode s) :
    exec .csComp s = .next (answered s s.block (checksumResponse s.block.computeChecksum)) := by
  simp only [exec, execCsComp]
  rw [withBarcode_ok hb.1 hb.2.1, withCells_ok hb.2.2, respond_eq]

theorem exec_csRead_ok (hb : HasBarcode s) :
    exec .csRead s = .next (answered s s.block (checksumResponse s.block.readChecksum)) := by
  simp only [exec, execCsRead]
  rw [withBarcode_ok hb.1 hb.2.1, withCells_ok hb.2.2, respond_eq]

theorem exec_csDraw_ok (hb : HasBarcode s) (lc lr : Field) {b : Tri} (h : b ≠ .mismatched) :
    exec (.csDraw lc lr b) s =
      .next (answered s (s.block.drawChecksum lc lr (b.code.getLsbD 0)) (okResponse 0 0 0)) := by
  simp only [exec, execCsDraw]
  rw [withBarcode_ok hb.1 hb.2.1, if_neg h, withCells_ok hb.2.2, respond_eq]

theorem exec_csRend_ok (hb : HasBarcode s) (h : s.block.computeChecksum.bit ≠ .mismatched) :
    exec .csRend s = .next (answered s (s.block.drawTriple s.block.computeChecksum) (okResponse 0 0 0)) := by
  simp only [exec, execCsRend]
  rw [withBarcode_ok hb.1 hb.2.1, withCells_ok hb.2.2, if_neg h, respond_eq]

theorem exec_render_ok (hf : s.block.fault = 0) (h1 : 1 ≤ n.toNat) (h8 : n.toNat ≤ 8)
    (hv : s.wdata.toNat < 2 ^ (n.toNat * n.toNat))
    (hfit : ((n.toNat + 1) * (n.toNat + 1) + 7) / 8 ≤ s.block.storeBytes) :
    exec (.render n) s = .next (answered s (s.block.rendered n s.wdata) (okResponse 0 0 0)) := by
  simp only [exec, execRender]
  rw [unlessFaulted_clear hf, sideLegal_iff.mpr ⟨h1, h8⟩, valueFits_iff.mpr hv, not_tooLarge.mpr hfit]
  rfl

theorem exec_validate_ok (hb : HasBarcode s) :
    exec .validate s = .next (answered s (s.block.flip s.block.diagnose) (verdictResponse s.block.diagnose)) := by
  simp only [exec, execValidate]
  rw [withBarcode_ok hb.1 hb.2.1, withCells_ok hb.2.2, respond_eq]

/-! ## The decision of VALIDATE -/

theorem bitMatches_iff {b : Block} :
    b.bitMatches = true ↔ b.readChecksum.bit = combinedParity b.readChecksum.lc b.readChecksum.lr := by
  rw [Block.bitMatches, decide_eq_true_eq]
  rfl

theorem diagnose_valid {b : Block} (h : b.readChecksum = b.computeChecksum) : b.diagnose = .valid := if_pos h

theorem diagnose_corrected {b : Block} (h : b.readChecksum ≠ b.computeChecksum) {c r : Nat}
    (ht : correctionTarget b.size b.cErr b.rErr b.bitMatches = some (c, r)) : b.diagnose = .corrected c r := by
  rw [Block.diagnose, if_neg h, ht]

theorem diagnose_uncorrectable {b : Block} (h : b.readChecksum ≠ b.computeChecksum)
    (ht : correctionTarget b.size b.cErr b.rErr b.bitMatches = none) : b.diagnose = .uncorrectable := by
  rw [Block.diagnose, if_neg h, ht]

theorem correctionTarget_dataCell (n : Nat) {x y : Nat} (hx : x < 8) (hy : y < 8) :
    correctionTarget n (1#8 <<< y) (1#8 <<< x) true = some (x, y) := by
  simp only [correctionTarget, popcount8_one_shiftLeft hx, popcount8_one_shiftLeft hy, onehotIndex8_one_shiftLeft hx,
    onehotIndex8_one_shiftLeft hy]
  rfl

theorem correctionTarget_checksumColumn (n : Nat) {y : Nat} (hy : y < 8) :
    correctionTarget n (1#8 <<< y) 0 false = some (n, y) := by
  simp only [correctionTarget, popcount8_one_shiftLeft hy, popcount8_zero, onehotIndex8_one_shiftLeft hy]
  rfl

theorem correctionTarget_checksumRow (n : Nat) {x : Nat} (hx : x < 8) :
    correctionTarget n 0 (1#8 <<< x) false = some (x, n) := by
  simp only [correctionTarget, popcount8_one_shiftLeft hx, popcount8_zero, onehotIndex8_one_shiftLeft hx]
  rfl

theorem correctionTarget_corner (n : Nat) : correctionTarget n 0 0 false = some (n, n) := rfl

theorem verdictResponse_corrected {c r : Nat} (hc : c < 256) (hr : r < 256) :
    verdictResponse (.corrected c r) = rspWord 0 c r 1 := by
  rw [verdictResponse, okResponse_eq, BitVec.toNat_ofNat, BitVec.toNat_ofNat, Nat.mod_eq_of_lt hc, Nat.mod_eq_of_lt hr]
  rfl

theorem verdictResponse_valid : verdictResponse .valid = rspWord 0 0 0 0 := okResponse_eq 0 0 _

theorem verdictResponse_uncorrectable : verdictResponse .uncorrectable = rspWord 0 0 0 2 := okResponse_eq 0 0 _

/-! The premises carry over to the block a command leaves. -/

theorem hasImage_writes (hi : HasImage s) (l : List (Nat × Nat × Bool)) (rsp : Word) :
    HasImage (answered s (s.block.writes l) rsp) :=
  ⟨by simpa using hi.1, by simpa using hi.2.1, Block.readable_writes hi.2.2 l⟩

theorem hasBarcode_writes (hb : HasBarcode s) (l : List (Nat × Nat × Bool)) (rsp : Word) :
    HasBarcode (answered s (s.block.writes l) rsp) :=
  ⟨by simpa using hb.1, Block.isBarcode_writes hb.2.1 l, Block.readable_writes hb.2.2 l⟩

theorem hasImage_newImage (hf : s.block.fault = 0) (hfit : (w.toNat * h.toNat + 7) / 8 ≤ s.block.storeBytes)
    (rsp : Word) : HasImage (answered s (s.block.newImage w h) rsp) :=
  ⟨hf, rfl, Block.readable_newImage _ _ _ hfit⟩

theorem hasImage_of_hasBarcode (hb : HasBarcode s) : HasImage s := ⟨hb.1, hb.2.1.1, hb.2.2⟩

theorem readable_of_inv {b : Block} (h : b.Inv) (hv : b.valid = true) : b.Readable := ⟨(h.image hv).2.2, h.held hv⟩

end Sys2Proof.Machine
end

