-- ==== Sys2Proof/Laws/PerInstr.lean ====
section
/-! SUPPORT. Statements made for every command, as syntax. `LegalFields`: the command is well formed when, and only when, the fields
it puts its operands in are those of an operation code of R44 with `Z = 0` and a wire code of R51; the types of its operands
make that true of every command. -/

namespace Sys2Proof.Laws.LegalFields

/-- No command can be spelled with illegal fields (R44, R51, R53). -/
def Statement (i : Instr) : Prop := i.wellFormed = true

theorem create (w h : Field) : Statement (.create w h) := by
  simp [Statement, Instr.wellFormed, Instr.fields, CmdFields.illegal?, CmdFields.assigned, CmdFields.usesA,
    CmdFields.usesB, CmdFields.cfUsed]

theorem free : Statement .free := rfl

theorem size : Statement .size := rfl

theorem get (c r : Field) : Statement (.get c r) := by
  simp [Statement, Instr.wellFormed, Instr.fields, CmdFields.illegal?, CmdFields.assigned, CmdFields.usesA,
    CmdFields.usesB, CmdFields.cfUsed]

theorem set (c r : Field) (v : Bool) : Statement (.set c r v) := by
  cases v <;>
  simp [Statement, Instr.wellFormed, Instr.fields, CmdFields.illegal?, CmdFields.assigned, CmdFields.usesA,
    CmdFields.usesB, CmdFields.cfUsed]

theorem invert (c r : Field) : Statement (.invert c r) := by
  simp [Statement, Instr.wellFormed, Instr.fields, CmdFields.illegal?, CmdFields.assigned, CmdFields.usesA,
    CmdFields.usesB, CmdFields.cfUsed]

theorem csComp : Statement .csComp := rfl

theorem csDraw (lc lr : Field) (b : Tri) : Statement (.csDraw lc lr b) := by
  cases b <;>
  simp [Statement, Instr.wellFormed, Instr.fields, CmdFields.illegal?, CmdFields.assigned, CmdFields.usesA,
    CmdFields.usesB, CmdFields.cfUsed]

theorem csRead : Statement .csRead := rfl

theorem csRend : Statement .csRend := rfl

theorem render (n : Field) : Statement (.render n) := by
  simp [Statement, Instr.wellFormed, Instr.fields, CmdFields.illegal?, CmdFields.assigned, CmdFields.usesA,
    CmdFields.usesB, CmdFields.cfUsed]

theorem validate : Statement .validate := rfl

end Sys2Proof.Laws.LegalFields
end

