-- ==== Sys2Proof/Tests/Slice0.lean ====
section
/-! SUPPORT. Tests and witnesses. Expected words, images and store bytes are those of `95_test_vectors.md` (the vector is named
beside each test), the illegal words those of its V18. A witness theorem (`witness_<obligation>`) shows that the hypotheses of that
obligation can be met together. -/

namespace Sys2Proof.Tests

open Sys2Proof Sys2Proof.Machine

/-! ## Small states -/

/-- A machine with a `w × h` image whose bytes are these, `STORE_BYTES` and `WDATA` as given. -/
def imageState (w h : Field) (bytes : List Byte) (storeBytes : Nat := 11) (wdata : Value := 0) : State where
  block := { valid := true, w := w, h := h, fault := 0, store := bytes.zipIdx.map fun x => (x.2, x.1), storeBytes := storeBytes }
  wdata := wdata
  pending := []
  responses := []

/-- No image, this operand on WDATA. -/
def noImageState (wdata : Value := 0) (storeBytes : Nat := 11) : State where
  block := { State.reset.block with storeBytes := storeBytes }
  wdata := wdata
  pending := []
  responses := []

/-- The image of V12, `RENDER 3, 0x1A5`. -/
def v12 : State := imageState 4 4 [0xC5, 0xF6]

/-- A blank 3×3 image. -/
def blank3 : State := imageState 3 3 [0x00, 0x00]

/-- The image of P4, 4×2, cell `(3, 1)` set. -/
def rect : State := imageState 4 2 [0x80]

/-- The largest barcode image, all ones in the data (V3). -/
def v3 : State := imageState 9 9 [0xFF, 0xFE, 0xFD, 0xFB, 0xF7, 0xEF, 0xDF, 0xBF, 0x7F, 0x00, 0x00]

/-- The smallest barcode image, `RENDER 1, 1` (V11). -/
def v11 : State := imageState 2 2 [0x0F]

/-- P4 after its fourth line. -/
def faulted : State := { rect with block := { rect.block with fault := 7 } }

/-- The moves of the host in a state. -/
def presenting (moves : List HostMove) (s : State) : State := { s with pending := moves }

/-- What one command shows: the response, the fault register, the dimensions, the store's bytes. -/
def shows (o : Host.Outcome State Fault Refusal) : Option (Word × BitVec 4 × Field × Field × List Byte) :=
  match o with
  | .next t => some (t.responses.headD 0xFFFFFFFF, t.block.fault, t.block.w, t.block.h, t.block.store.map (·.2))
  | .fault _ => none
  | .refused _ => none

/-! ## Well-formedness -/

/-- R53 (a): operation codes `0xD` and 0. -/
theorem test_illformed_reserved_op :
    (CmdFields.mk 0xD 0 0 0 0).illegal? = some .reservedOp ∧ (CmdFields.mk 0 0 0 0 0).illegal? = some .reservedOp := by decide

/-- R53 (b): GET with `Z = 1`. -/
theorem test_illformed_reserved_bits : (CmdFields.mk 0x4 0 0 0 1).illegal? = some .reservedBits := by decide

/-- R53 (c): SIZE with `A = 1`, RENDER with `B = 1`, SET with `Cf = 0b10`. -/
theorem test_illformed_unused_field :
    (CmdFields.mk 0x3 1 0 0 0).illegal? = some .unusedField ∧ (CmdFields.mk 0xB 6 1 0 0).illegal? = some .unusedField ∧
    (CmdFields.mk 0x5 0 0 0b10 0).illegal? = some .unusedField := by decide

/-- R53 (d): CSDRAW with `Cf = 0b10`. -/
theorem test_illformed_reserved_tri : (CmdFields.mk 0x8 0 0 0b10 0).illegal? = some .reservedTri := by decide

theorem test_wellformed : (CmdFields.mk 0x8 0xFF 0xFF 0b11 0).illegal? = none ∧ (CmdFields.mk 0x5 2 1 1 0).illegal? = none := by
  decide

/-! ## Decoding (V18) -/

theorem test_decode_bitimage :
    (decode 0x10707000).toOption = some (.create 7 7) ∧ (decode 0x20000000).toOption = some .free ∧
    (decode 0x30000000).toOption = some .size ∧ (decode 0x40604000).toOption = some (.get 6 4) ∧
    (decode 0x50201400).toOption = some (.set 2 1 true) ∧ (decode 0x60606000).toOption = some (.invert 6 6) := by decide

theorem test_decode_checksum :
    (decode 0x70000000).toOption = some .csComp ∧ (decode 0x81103000).toOption = some (.csDraw 0x11 0x03 .zero) ∧
    (decode 0x80203400).toOption = some (.csDraw 0x02 0x03 .one) ∧
    (decode 0x80000C00).toOption = some (.csDraw 0 0 .mismatched) ∧ (decode 0x90000000).toOption = some .csRead ∧
    (decode 0xA0000000).toOption = some .csRend := by decide

theorem test_decode_encoder_validator :
    (decode 0xB0600000).toOption = some (.render 6) ∧ (decode 0xC0000000).toOption = some .validate := by decide

/-- V18's illegal words. -/
def illegalWords : List Word :=
  [0x00000000, 0xD0000000, 0xE0000000, 0xF0000000, 0xFFFFFFFF, 0x40000001, 0x10000400, 0x30100000, 0x20001000, 0x50000800] ++
  [0x50000C00, 0x60000400, 0x70000400, 0x80000800, 0x90000200, 0xA0100000, 0xB0601000, 0xB0600400, 0xC0000C00]

theorem test_decode_illegal_words :
    illegalWords.all (fun w => (decode w).toOption.isNone) = true := by decide

theorem test_encode_set : encode (.set 2 1 true) = 0x50201400 := by decide

theorem test_decodeTableWord : decodeTableWord 32 0x40604000 = some (.get 6 4) ∧ decodeTableWord 32 0 = none := by decide

/-! ## The BitImage family (V8, V8a, V8b) -/

theorem test_create : shows (exec (.create 7 5) (noImageState)) = some (0, 0, 7, 5, [0, 0, 0, 0, 0]) := by decide

theorem test_create_wide_product : shows (exec (.create 255 255) rect) = some (0x10000000, 0, 4, 2, [0x80]) := by decide

theorem test_free : shows (exec .free blank3) = some (0, 0, 0, 0, [0, 0]) := by decide

theorem test_free_twice : shows (exec .free noImageState) = some (0x20200000, 2, 0, 0, []) := by decide

theorem test_size : shows (exec .size (imageState 7 5 [0, 0, 0, 0, 0])) = some (0x00705000, 0, 7, 5, [0, 0, 0, 0, 0]) := by decide

theorem test_get_last_cell : shows (exec (.get 3 1) rect) = some (0x400, 0, 4, 2, [0x80]) := by decide

theorem test_get_column_out : shows (exec (.get 3 0) blank3) = some (0x20300000, 3, 3, 3, [0, 0]) := by decide

theorem test_set : shows (exec (.set 2 1 true) (imageState 3 2 [0])) = some (0, 0, 3, 2, [0x20]) := by decide

theorem test_set_out : shows (exec (.set 3 3 true) blank3) = some (0x20300000, 3, 3, 3, [0, 0]) := by decide

theorem test_invert : shows (exec (.invert 0 1) v12) = some (0, 0, 4, 4, [0xD5, 0xF6]) := by decide

theorem test_invert_out : shows (exec (.invert 255 0) blank3) = some (0x20300000, 3, 3, 3, [0, 0]) := by decide

/-! ## The checksum family (V9, V10, V10a) -/

theorem test_csComp : shows (exec .csComp (imageState 3 3 [0x1A, 0x00])) = some (0x00101400, 0, 3, 3, [0x1A, 0x00]) := by decide

theorem test_csComp_shape : shows (exec .csComp rect) = some (0x20700000, 7, 4, 2, [0x80]) := by decide

theorem test_csDraw : shows (exec (.csDraw 0xFE 0xFD .one) blank3) = some (0, 0, 3, 3, [0x60, 0x01]) := by decide

theorem test_csDraw_mismatched : shows (exec (.csDraw 0 0 .mismatched) blank3) = some (0x20800000, 8, 3, 3, [0, 0]) := by decide

theorem test_csRead : shows (exec .csRead (imageState 3 3 [0xE0, 0x01])) = some (0x00203400, 0, 3, 3, [0xE0, 0x01]) := by decide

theorem test_csRend : shows (exec .csRend (imageState 3 3 [0x1A, 0x00])) = some (0, 0, 3, 3, [0x5E, 0x01]) := by decide

/-- V10b; also the witness for each clause of CombinedParityTruthTable. -/
theorem test_combinedParity :
    combinedParity 0x11 0x03 = .zero ∧ combinedParity 0x02 0x07 = .one ∧ combinedParity 0x00 0x07 = .mismatched ∧
    combinedParity 0x01 0x00 = .mismatched ∧
    combinedParity 0xFF 0x7F = .mismatched ∧ combinedParity 0x80 0x01 = .one := by decide

/-! ## The encoder and the validator (V1, V11, V13, V14, V15) -/

theorem test_render :
    shows (exec (.render 6) (noImageState 20111001)) = some (0, 0, 7, 7, [0x59, 0x5D, 0x8B, 0x11, 0x04, 0x0C, 0x00]) := by
  decide +kernel

theorem test_render_value : shows (exec (.render 2) (noImageState 16)) = some (0x20600000, 6, 0, 0, []) := by decide

theorem test_validate_data_cell :
    shows (exec .validate (imageState 4 4 [0xC5, 0xF4])) = some (0x00102400, 0, 4, 4, [0xC5, 0xF6]) := by decide +kernel

theorem test_validate_checksum_column :
    shows (exec .validate (imageState 4 4 [0x45, 0xF6])) = some (0x00301400, 0, 4, 4, [0xC5, 0xF6]) := by decide +kernel

/-! ## The step (V19, P4) and the text (R57) -/

theorem test_step_illegal_word :
    shows (step (presenting [.command 0x00000000 0] rect)) = some (0x20100000, 1, 4, 2, [0x80]) := by decide

theorem test_step_sticky_fault :
    shows (step (presenting [.command 0x10202000 0] faulted)) = some (0x20700000, 7, 4, 2, [0x80]) := by decide

theorem test_withFetchWord :
    shows (step (State.reset.withFetchWord 32 0x10303000)) = some (0, 0, 3, 3, [0, 0]) := by decide

theorem test_text_program :
    (Text.parseProgram ["CREATE 3, 3".toList, "; blank".toList, "CSDRAW 0xFE, 0xFD, 1".toList, "VALIDATE".toList]).toOption =
      some [.command 0x10303000 0, .command 0x8FEFD400 0, .command 0xC0000000 0] := by decide

theorem test_text_response : Text.showResponse 0x00102400 = some "OK RA=1 RB=2 RC=01".toList := by decide

/-! ## Witnesses: the hypotheses of each obligation can be met -/

/-- The premise `HasImage`, on a small image and on one of the largest width. -/
theorem witness_HasImage : HasImage rect ∧ HasImage (imageState 255 1 (List.replicate 32 0) 32) := by decide +kernel

/-- The premise `HasBarcode`, at a middle, the smallest and the largest side. -/
theorem witness_HasBarcode : HasBarcode v12 ∧ HasBarcode v11 ∧ HasBarcode v3 := by decide +kernel

theorem witness_DecodeInvertsEncode : (Instr.csDraw 0xFF 0xFF .mismatched).wellFormed = true := by decide

theorem witness_EncodeInvertsDecode : decode 0x8FFFFC00 = .ok (.csDraw 0xFF 0xFF .mismatched) := by rfl

/-- A row and a word that selects it, and a word that decodes. -/
theorem witness_LegalWordsSelectTheirRow :
    (∃ row ∈ opcodeRows, row.selects 0x50201400 = true) ∧ decode 0x50201400 = .ok (.set 2 1 true) := ⟨by decide, rfl⟩

/-- An illegal word of each clause of R53, presented to a block with no fault. -/
theorem witness_IllegalWordsFault :
    decode 0xD0000000 = .error .reservedOp ∧ decode 0x40000001 = .error .reservedBits ∧
    decode 0x30100000 = .error .unusedField ∧ decode 0x50000800 = .error .unusedField ∧
    decode 0x80000800 = .error .reservedTri ∧
    (presenting [.command 0x80000800 5] rect).pending = .command 0x80000800 5 :: [] ∧
    (presenting [.command 0x80000800 5] rect).block.fault = 0 := ⟨rfl, rfl, rfl, rfl, rfl, rfl, rfl⟩

theorem witness_StepExecutesTheDecodedCommand :
    (presenting [.command 0xB0600000 20111001] rect).pending = .command 0xB0600000 20111001 :: [] ∧
    decode 0xB0600000 = .ok (.render 6) := ⟨rfl, rfl⟩

/-- A command that answers, one for each of the three statuses. -/
theorem witness_EveryResponseHasItsForm :
    (∃ t, exec .size rect = .next t) ∧ (∃ t, exec (.create 89 1) rect = .next t ∧ t.block = rect.block) ∧
    (∃ t, exec (.get 4 0) rect = .next t ∧ t.block.fault ≠ 0) :=
  ⟨⟨_, rfl⟩, ⟨_, rfl, by decide⟩, ⟨_, rfl, by decide⟩⟩

theorem witness_FaultedBlockAnswersItsCause :
    (presenting [.command 0 0] faulted).pending = .command 0 0 :: [] ∧ (presenting [.command 0 0] faulted).block.fault ≠ 0 := by
  decide

theorem witness_FaultStaysThroughAnyCommands :
    (presenting [.command 0x20000000 0, .command 0 0] faulted).block.fault ≠ 0 ∧
    onlyCommands (presenting [.command 0x20000000 0, .command 0 0] faulted).pending = true := by decide

theorem witness_NoImageFault :
    noImageState.block.fault = 0 ∧ (Instr.get 255 255).needsImage = true ∧ noImageState.block.valid = false := by decide

/-- The first column and the first row outside the image, one at a time, and a command that records BOUNDS. -/
theorem witness_OutOfBoundsFaults :
    rect.block.fault = 0 ∧ rect.block.valid = true ∧ rect.block.w.toNat ≤ (4 : Field).toNat ∧
    rect.block.h.toNat ≤ (2 : Field).toNat ∧
    (∃ t, exec (.set 0 2 true) rect = .next t ∧ t.block.fault = 3) := ⟨by decide, by decide, by decide, by decide, _, rfl, by decide⟩

/-- Not square; side 1; side 10. -/
theorem witness_WrongShapeFaults :
    ∀ s ∈ [rect, imageState 1 1 [0], imageState 10 10 (List.replicate 13 0) 13],
      Instr.validate.needsBarcode = true ∧ s.block.fault = 0 ∧ s.block.valid = true ∧
      ¬(s.block.w = s.block.h ∧ 2 ≤ s.block.w.toNat ∧ s.block.w.toNat ≤ 9) := by decide

theorem witness_DrawingMismatchedFaults :
    blank3.block.fault = 0 ∧ blank3.block.IsBarcode ∧
    ∃ t, exec (.csDraw 0 0 .mismatched) blank3 = .next t ∧ t.block.fault = 8 := ⟨by decide, by decide, _, rfl, by decide⟩

theorem witness_ZeroDimensionFaults : rect.block.fault = 0 ∧ ((0 : Field) = 0 ∨ (255 : Field) = 0) := by decide

/-- Sides 0 and 9; the smallest value too large for side 7; a RENDER of side 8 that answers. -/
theorem witness_RenderRefusesBadOperands :
    (noImageState (2 ^ 49)).block.fault = 0 ∧ ¬(1 ≤ (0 : Field).toNat ∧ (0 : Field).toNat ≤ 8) ∧
    ¬(1 ≤ (9 : Field).toNat ∧ (9 : Field).toNat ≤ 8) ∧
    (1 ≤ (7 : Field).toNat ∧ (7 : Field).toNat < 8 ∧
      2 ^ ((7 : Field).toNat * (7 : Field).toNat) ≤ (noImageState (2 ^ 49)).wdata.toNat) ∧
    (8 : Field).toNat = 8 ∧ ∃ t, exec (.render 8) (noImageState (2 ^ 64 - 1)) = .next t :=
  ⟨by decide, by decide, by decide, by decide, by decide, _,
    exec_render_ok (by decide) (by decide) (by decide) (by decide) (by decide)⟩

/-- 90 cells against 88, and a store that a 4×4 image overflows. -/
theorem witness_AllocErrChangesNothing :
    (rect.block.fault = 0 ∧ (10 : Field) ≠ 0 ∧ (9 : Field) ≠ 0 ∧
      rect.block.storeBytes < ((10 : Field).toNat * (9 : Field).toNat + 7) / 8) ∧
    ((noImageState 0x1A5 1).block.fault = 0 ∧ 1 ≤ (3 : Field).toNat ∧ (3 : Field).toNat ≤ 8 ∧
      (noImageState 0x1A5 1).wdata.toNat < 2 ^ ((3 : Field).toNat * (3 : Field).toNat) ∧
      (noImageState 0x1A5 1).block.storeBytes < (((3 : Field).toNat + 1) * ((3 : Field).toNat + 1) + 7) / 8) := by decide

theorem witness_NonOkChangesNothing :
    (∃ t, exec (.create 89 1) rect = .next t ∧ t.responses = 0x10000000#32 :: rect.responses) ∧
    (∃ t, exec (.get 4 0) rect = .next t ∧ t.responses = 0x20300000#32 :: rect.responses) ∧
    (0x10000000#32).extractLsb' 28 4 ≠ 0 ∧ (0x10000000#32).extractLsb' 28 4 = 1 ∧ (0x20300000#32).extractLsb' 28 4 ≠ 0 :=
  ⟨⟨_, rfl, by decide⟩, ⟨_, rfl, by decide⟩, by decide, by decide, by decide⟩

/-- The largest image that fits exactly. -/
theorem witness_CreateBeginsABlankImage :
    rect.block.fault = 0 ∧ (88 : Field) ≠ 0 ∧ (1 : Field) ≠ 0 ∧
    ((88 : Field).toNat * (1 : Field).toNat + 7) / 8 ≤ rect.block.storeBytes := by decide

theorem witness_FreeEndsTheImage : rect.block.fault = 0 ∧ rect.block.valid = true := by decide

theorem witness_SizeAnswersTheDimensions : v3.block.fault = 0 ∧ v3.block.valid = true := by decide

/-- The last cell of a 4×2 image and its byte. -/
theorem witness_GetAnswersTheCell :
    HasImage rect ∧ (3 : Field).toNat < rect.block.w.toNat ∧ (1 : Field).toNat < rect.block.h.toNat ∧
    Memory.read? rect.block.store (((1 : Field).toNat * rect.block.w.toNat + (3 : Field).toNat) / 8) = some 0x80 := by decide

theorem witness_SetWritesOneCell :
    HasImage rect ∧ (3 : Field).toNat < rect.block.w.toNat ∧ (1 : Field).toNat < rect.block.h.toNat := by decide

theorem witness_InvertComplementsOneCell :
    HasImage v12 ∧ (3 : Field).toNat < v12.block.w.toNat ∧ (3 : Field).toNat < v12.block.h.toNat ∧
    Memory.wf v12.block.store := by decide

theorem witness_ReadAfterWrite :
    (HasImage rect ∧ (3 : Field).toNat < rect.block.w.toNat ∧ (1 : Field).toNat < rect.block.h.toNat ∧
      reply (.get 3 1) rect = some (rspWord 0 0 0 true.toNat)) ∧
    (∃ t, exec (.create 3 2) rect = .next t ∧ t.responses = rspWord 0 0 0 0 :: rect.responses ∧
      (2 : Field).toNat < (3 : Field).toNat ∧ (1 : Field).toNat < (2 : Field).toNat) :=
  ⟨by decide, _, rfl, by decide⟩

/-- Two cells of one row, and two of one column. -/
theorem witness_OtherCellsKeepTheirValue :
    HasImage rect ∧ (3 : Field).toNat < rect.block.w.toNat ∧ (1 : Field).toNat < rect.block.h.toNat ∧
    (0 : Field).toNat < rect.block.w.toNat ∧ (0 : Field).toNat < rect.block.h.toNat ∧
    ((0 : Field), (1 : Field)) ≠ (3, 1) ∧ ((3 : Field), (0 : Field)) ≠ (3, 1) := by decide

theorem witness_LastWriteWins :
    rect.block.fault = 0 ∧ (3 : Field) ≠ 0 ∧ (2 : Field) ≠ 0 ∧
    ((3 : Field).toNat * (2 : Field).toNat + 7) / 8 ≤ rect.block.storeBytes ∧
    (∀ x ∈ [((2 : Field), (1 : Field), true), (2, 1, false), (0, 0, true)],
      x.1.toNat < (3 : Field).toNat ∧ x.2.1.toNat < (2 : Field).toNat) ∧
    (2 : Field).toNat < (3 : Field).toNat ∧ (1 : Field).toNat < (2 : Field).toNat :=
  ⟨by decide, by decide, by decide, by decide, by simp, by decide, by decide⟩

/-- For CscompAnswersTheParities, CsdrawDrawsTheBorder, CsreadAnswersTheBorder and CsrendDrawsTheParities, at the smallest and the
largest side. -/
theorem witness_barcode_commands :
    HasBarcode v11 ∧ HasBarcode v3 ∧ HasBarcode blank3 ∧ HasBarcode (imageState 3 3 [0x1A, 0x00]) := by decide +kernel

/-- Also for ParityTreesComputeTheChecksum. -/
theorem witness_ExpectedBitIsTheDataParity : v11.block.IsBarcode ∧ v3.block.IsBarcode := by decide

/-- A data cell, a checksum-column cell, a checksum-row cell and the corner, at the largest side. -/
theorem witness_OneInvertedCellInTheChecksums : v3.block.IsBarcode ∧ 7 < v3.block.size := by decide

theorem witness_ReadInvertsDraw :
    v3.block.IsBarcode ∧ HasBarcode (imageState 3 3 [0x1A, 0x00]) ∧
    ∃ t, exec .csRend (imageState 3 3 [0x1A, 0x00]) = .next t := ⟨by decide, by decide, _, rfl⟩

/-- Bit 2 of the labels of a 3×3 image. -/
theorem witness_UnusedLabelBits :
    blank3.block.IsBarcode ∧ blank3.block.size ≤ 2 ∧
    ∀ i < blank3.block.size, (0xFE : Field).getLsbD i = (0x02 : Field).getLsbD i ∧
      (0xFD : Field).getLsbD i = (0x01 : Field).getLsbD i := by decide

/-- Side 8 with all ones, the largest value and the exact store. -/
theorem witness_RenderMakesTheBarcode :
    (noImageState (2 ^ 64 - 1)).block.fault = 0 ∧ 1 ≤ (8 : Field).toNat ∧ (8 : Field).toNat ≤ 8 ∧
    (noImageState (2 ^ 64 - 1)).wdata.toNat < 2 ^ ((8 : Field).toNat * (8 : Field).toNat) ∧
    (((8 : Field).toNat + 1) * ((8 : Field).toNat + 1) + 7) / 8 ≤ (noImageState (2 ^ 64 - 1)).block.storeBytes := by decide +kernel

theorem witness_RenderFailsOnlyByAllocation :
    (noImageState 1).block.fault = 0 ∧ 1 ≤ (1 : Field).toNat ∧ (1 : Field).toNat ≤ 8 ∧
    (noImageState 1).wdata.toNat < 2 ^ ((1 : Field).toNat * (1 : Field).toNat) ∧ 11 ≤ (noImageState 1).block.storeBytes := by
  decide

/-- A RENDER that answers OK, for RenderRoundTrip, RenderedImageIsValid, ValidAfterDrawing and OnlyRenderReadsWdata. -/
theorem witness_render_ok :
    (noImageState 0x1A5).block.fault = 0 ∧ 1 ≤ (3 : Field).toNat ∧ (3 : Field).toNat ≤ 8 ∧
    (noImageState 0x1A5).wdata.toNat < 2 ^ ((3 : Field).toNat * (3 : Field).toNat) ∧
    ∃ t, exec (.render 3) (noImageState 0x1A5) = .next t ∧
      t.responses = rspWord 0 0 0 0 :: (noImageState 0x1A5).responses := 
  ⟨by decide, by decide, by decide, by decide, _,
    exec_render_ok (by decide) (by decide) (by decide) (by decide) (by decide), rfl⟩

theorem inv_noImageState : (noImageState 0x1A5).block.Inv where
  noImage _ := ⟨rfl, rfl⟩
  image h := by cases h
  cause := by decide
  parameter := by decide
  canonical := by decide
  addresses := by decide
  held h := by cases h

theorem witness_RenderEqualsItsSequence :
    (noImageState 0x1A5).block.Inv ∧ (noImageState 0x1A5).block.fault = 0 ∧
    ∃ t, exec (.render 3) (noImageState 0x1A5) = .next t ∧
      t.responses = rspWord 0 0 0 0 :: (noImageState 0x1A5).responses :=
  ⟨inv_noImageState, by decide, _,
    exec_render_ok (by decide) (by decide) (by decide) (by decide) (by decide), rfl⟩

/-- One image for each row of the decision table and for the answers Valid and Uncorrectable (V12, V14, V16). -/
theorem witness_ValidateFollowsTheTable :
    (HasBarcode v12 ∧ v12.block.readChecksum = v12.block.computeChecksum) ∧
    (HasBarcode (imageState 4 4 [0xC5, 0xF4]) ∧ (imageState 4 4 [0xC5, 0xF4]).block.cErr = 1#8 <<< 2 ∧
      (imageState 4 4 [0xC5, 0xF4]).block.rErr = 1#8 <<< 1 ∧ (imageState 4 4 [0xC5, 0xF4]).block.bitMatches = true) ∧
    (HasBarcode (imageState 4 4 [0x45, 0xF6]) ∧ (imageState 4 4 [0x45, 0xF6]).block.cErr = 1#8 <<< 1 ∧
      (imageState 4 4 [0x45, 0xF6]).block.rErr = 0 ∧ (imageState 4 4 [0x45, 0xF6]).block.bitMatches = false) ∧
    (HasBarcode (imageState 4 4 [0xC5, 0xB6]) ∧ (imageState 4 4 [0xC5, 0xB6]).block.cErr = 0 ∧
      (imageState 4 4 [0xC5, 0xB6]).block.rErr = 1#8 <<< 2 ∧ (imageState 4 4 [0xC5, 0xB6]).block.bitMatches = false) ∧
    (HasBarcode (imageState 4 4 [0xC5, 0x76]) ∧ (imageState 4 4 [0xC5, 0x76]).block.cErr = 0 ∧
      (imageState 4 4 [0xC5, 0x76]).block.rErr = 0 ∧ (imageState 4 4 [0xC5, 0x76]).block.bitMatches = false) ∧
    (HasBarcode (imageState 4 4 [0x95, 0xF6]) ∧ (imageState 4 4 [0x95, 0xF6]).block.cErr = 0 ∧
      (imageState 4 4 [0x95, 0xF6]).block.rErr = 0x05) := by decide +kernel

/-- Each of the three outcomes. -/
theorem witness_ValidateWritesAtMostOneCell :
    reply .validate v12 = some (rspWord 0 0 0 0) ∧ reply .validate (imageState 4 4 [0x95, 0xF6]) = some (rspWord 0 0 0 2) ∧
    reply .validate (imageState 4 4 [0xC5, 0x76]) = some (rspWord 0 3 3 1) := by decide +kernel

theorem witness_ValidateNeverFaultsOnContent :
    (v12.block.fault = 0 ∧ v12.block.valid = true ∧ v12.block.Readable ∧ v12.block.IsBarcode) ∧
    (rect.block.fault = 0 ∧ rect.block.valid = true ∧ rect.block.Readable ∧ ¬ rect.block.IsBarcode) := by decide

/-- A valid barcode image of side 4 and of side 2. -/
theorem witness_ValidStaysValid :
    HasBarcode v12 ∧ v12.block.readChecksum = v12.block.computeChecksum ∧
    HasBarcode v11 ∧ v11.block.readChecksum = v11.block.computeChecksum := by decide +kernel

theorem inv_v12 : v12.block.Inv where
  noImage h := by cases h
  image _ := by decide
  cause := by decide
  parameter := by decide
  canonical := by decide
  addresses := by decide
  held _ := by decide

theorem witness_SingleErrorCorrection :
    v12.block.Inv ∧ v12.block.fault = 0 ∧ v12.block.IsBarcode ∧ v12.block.readChecksum = v12.block.computeChecksum ∧
    (3 : Field).toNat < v12.block.w.toNat ∧ (3 : Field).toNat < v12.block.h.toNat :=
  ⟨inv_v12, by decide, by decide, by decide +kernel, by decide, by decide⟩

theorem witness_ValidAfterDrawing :
    HasBarcode (imageState 3 3 [0x1A, 0x00]) ∧ ∃ t, exec .csRend (imageState 3 3 [0x1A, 0x00]) = .next t :=
  ⟨by decide, _, rfl⟩

theorem witness_SyndromeCombinations :
    (imageState 4 4 [0x95, 0xF6]).block.IsBarcode ∧
    (imageState 4 4 [0x95, 0xF6]).block.readChecksum ≠ (imageState 4 4 [0x95, 0xF6]).block.computeChecksum := by decide +kernel

/-- The pairs of V16, one for each clause, with a state whose block is the image with both cells inverted. -/
theorem witness_DoubleErrorsReported :
    (HasBarcode v12 ∧ v12.block.readChecksum = v12.block.computeChecksum) ∧
    (let n := v12.block.size
     ∀ p ∈ [(0, 1, 2, 1), (1, 0, 1, 2), (0, 0, 1, 1), (1, 1, 3, 3), (3, 0, 3, 2), (0, 3, 2, 3), (3, 0, 0, 3)],
      let (c₁, r₁, c₂, r₂) := p
      (c₁, r₁) ≠ (c₂, r₂) ∧
      ((c₁ < n ∧ c₂ < n ∧ r₁ < n ∧ r₁ = r₂) ∨ (c₁ < n ∧ r₁ < n ∧ r₂ < n ∧ c₁ = c₂) ∨
       (c₁ < n ∧ c₂ < n ∧ r₁ < n ∧ r₂ < n ∧ c₁ ≠ c₂ ∧ r₁ ≠ r₂) ∨ (c₁ < n ∧ r₁ < n ∧ c₂ = n ∧ r₂ = n) ∨
       (c₁ = n ∧ c₂ = n ∧ r₁ < n ∧ r₂ < n) ∨ (r₁ = n ∧ r₂ = n ∧ c₁ < n ∧ c₂ < n) ∨
       (c₁ = n ∧ r₁ < n ∧ c₂ < n ∧ r₂ = n))) ∧
    (imageState 4 4 [0x95, 0xF6]).block = (v12.block.cellInvert 0 1).cellInvert 2 1 := by decide +kernel

/-- The pairs of V17. -/
theorem witness_DoubleErrorsMiscorrected :
    HasBarcode v12 ∧ v12.block.readChecksum = v12.block.computeChecksum ∧ 1 < v12.block.size ∧
    (imageState 4 4 [0x65, 0xF6]).block = (v12.block.cellInvert 1 1).cellInvert v12.block.size 1 ∧
    (imageState 4 4 [0xE5, 0xD6]).block = (v12.block.cellInvert 1 1).cellInvert 1 v12.block.size ∧
    (imageState 4 4 [0x45, 0x76]).block = (v12.block.cellInvert v12.block.size 1).cellInvert v12.block.size v12.block.size ∧
    (imageState 4 4 [0xC5, 0x56]).block = (v12.block.cellInvert 1 v12.block.size).cellInvert v12.block.size v12.block.size := by
  decide +kernel

theorem witness_PureCheckEqualsValidate :
    HasBarcode v12 ∧ reply .csComp v12 = reply .csRead v12 ∧ HasBarcode (imageState 4 4 [0xC5, 0x76]) ∧
    reply .csComp (imageState 4 4 [0xC5, 0x76]) ≠ reply .csRead (imageState 4 4 [0xC5, 0x76]) := by decide +kernel

theorem witness_ResetLeavesNoImage : (presenting [.reset, .command 0 0] faulted).pending = .reset :: [.command 0 0] := by decide

/-- For EveryStepKeepsTheInvariant, NoStopUnderTheInvariant and PadBitsStayZero: a step from a state that has the invariants. -/
theorem witness_step_keeps_the_invariant :
    (presenting [.command 0x60000000 0] v12).block.Inv ∧
    (∃ t, step (presenting [.command 0x60000000 0] v12) = .next t) ∧
    (presenting [.command 0x60000000 0] v12).block.PadZero :=
  ⟨inv_v12, ⟨_, rfl⟩, fun _ i h1 h2 => absurd h2 (by revert h1; simp [presenting, v12, imageState])⟩

/-- An image with seven pad bits. -/
theorem witness_PadBitsStayZero : (presenting [.command 0x50000400 0] blank3).block.PadZero := by
  intro _ i h1 h2
  have h1' : 9 ≤ i := h1
  have h2' : i < 16 := h2
  interval_cases i <;> decide

theorem witness_DimensionsChangeWithTheImage :
    ∃ t, exec (.create 7 5) rect = .next t ∧
      (t.block.w ≠ rect.block.w ∨ t.block.h ≠ rect.block.h ∨ t.block.valid ≠ rect.block.valid) := ⟨_, rfl, by decide⟩

/-- A command other than RENDER that answers, and one that stops (the model's own stop, log 2). -/
theorem witness_OnlyRenderReadsWdata :
    (∀ n, Instr.size ≠ .render n) ∧ (∃ t, exec .size rect = .next t) ∧ (∀ n, Instr.get 0 0 ≠ .render n) ∧
    exec (.get 0 0) (imageState 4 2 []) = .fault .unreadableStore :=
  ⟨by simp, ⟨_, rfl⟩, by simp, rfl⟩

/-- Two stores that differ only in a byte beyond the image. -/
theorem witness_StoreBytesAreUnobservable :
    (presenting [.command 0x40301000 0] rect).block.Alike (imageState 4 2 [0x80, 0xFF]).block ∧
    ((presenting [.command 0x40301000 0] rect).block.valid = true →
      (presenting [.command 0x40301000 0] rect).block.Readable ∧ (imageState 4 2 [0x80, 0xFF]).block.Readable) ∧
    (∃ t, step (presenting [.command 0x40301000 0] rect) = .next t) :=
  ⟨⟨rfl, rfl, rfl, rfl, rfl, fun _ c r hc hr => by
      have hc' : c < 4 := hc
      have hr' : r < 2 := hr
      interval_cases c <;> interval_cases r <;> decide⟩,
    by decide, _, rfl⟩

end Sys2Proof.Tests
end

section
/-! The step, one equation per move of the host, and its inversion. -/

namespace Sys2Proof.Machine

variable {s t : State} {rest : List HostMove} {cmd : Word} {wdata : Value} {i : Instr}

theorem step_idle (hp : s.pending = []) : step s = .next s := by simp only [step, hp, idle]

theorem step_reset (hp : s.pending = .reset :: rest) :
    step s = .next { s with block := s.block.afterReset, pending := rest } := by simp only [step, hp, resetMove]

theorem step_command (hp : s.pending = .command cmd wdata :: rest) (hd : decode cmd = .ok i) :
    step s = exec i (accept wdata rest s) := by simp only [step, hp, hd]

theorem step_illegal {r : IllegalReason} (hp : s.pending = .command cmd wdata :: rest) (hd : decode cmd = .error r) :
    step s = illegalCommand (accept wdata rest s) := by simp only [step, hp, hd]

theorem illegalCommand_effect (h : illegalCommand s = .next t) : Effect s t :=
  effect_unlessFaulted (fun hf h => effect_raise hf h) h

/-- The ways one step can end, by the move the host presents. -/
theorem step_cases (h : step s = .next t) :
    (s.pending = [] ∧ t = s) ∨
    (∃ rest, s.pending = .reset :: rest ∧ t = { s with block := s.block.afterReset, pending := rest }) ∨
    ∃ cmd wdata rest, s.pending = .command cmd wdata :: rest ∧ Effect (accept wdata rest s) t := by
  cases hp : s.pending with
  | nil =>
    rw [step_idle hp] at h
    cases h
    exact .inl ⟨rfl, rfl⟩
  | cons move rest =>
    cases move with
    | reset =>
      rw [step_reset hp] at h
      cases h
      exact .inr (.inl ⟨rest, rfl, rfl⟩)
    | command cmd wdata =>
      refine .inr (.inr ⟨cmd, wdata, rest, rfl, ?_⟩)
      cases hd : decode cmd with
      | ok i => exact exec_effect ((step_command hp hd).symm.trans h)
      | error r => exact illegalCommand_effect ((step_illegal hp hd).symm.trans h)

end Sys2Proof.Machine
end

section
/-! The invariants of R21: they hold after reset, and every way a command or a move can end keeps them. -/

namespace Sys2Proof.Machine

open Block

theorem inv_reset : Block.reset.Inv where
  noImage _ := ⟨rfl, rfl⟩
  image hv := absurd hv (by decide)
  cause := by decide
  parameter := le_refl _
  canonical := Memory.wf_nil
  addresses _ hx := absurd hx List.not_mem_nil
  held hv := absurd hv (by decide)

variable {b : Block} (hb : b.Inv)
include hb

theorem inv_afterReset : b.afterReset.Inv where
  noImage _ := ⟨rfl, rfl⟩
  image hv := absurd hv (by simp)
  cause := by simp
  parameter := hb.parameter
  canonical := Memory.wf_nil
  addresses _ hx := absurd hx List.not_mem_nil
  held hv := absurd hv (by simp)

theorem inv_withFault (c : Cause) : (b.withFault c.code).Inv :=
  { hb with cause := code_le c }

theorem inv_freed : Block.Inv { b with valid := false, w := 0, h := 0 } :=
  { hb with
    noImage := fun _ => ⟨rfl, rfl⟩
    image := fun hv => absurd hv (by simp)
    held := fun hv => absurd hv (by simp) }

/-- An image that fits the store has the invariants once its bytes are cleared (R61, R93). -/
theorem inv_newImage {w h : Field} (hw : w ≠ 0) (hh : h ≠ 0) (hfit : bytesFor w.toNat h.toNat ≤ b.storeBytes) :
    (b.newImage w h).Inv where
  noImage hv := absurd hv (by simp)
  image _ := ⟨BitVec.toNat_pos_of_ne_zero hw, BitVec.toNat_pos_of_ne_zero hh, hfit⟩
  cause := hb.cause
  parameter := hb.parameter
  canonical := Memory.wf_clear hb.canonical _
  addresses x hx := by
    rcases Memory.mem_clear hx with hx | hx
    · exact hx.trans_le hfit
    · exact hb.addresses x hx
  held _ := (readable_newImage b w h hfit).2

/-- Writes to cells of the image add no address outside it and take no value away. -/
theorem inv_writes (hv : b.valid = true) {l : List (Nat × Nat × Bool)}
    (hl : ∀ x ∈ l, x.1 < b.w.toNat ∧ x.2.1 < b.h.toNat) : (b.writes l).Inv where
  noImage hv' := absurd hv' (by simp [hv])
  image _ := by simpa using hb.image hv
  cause := by simpa using hb.cause
  parameter := by simpa using hb.parameter
  canonical := wf_writes hb.canonical l
  addresses x hx := by
    rw [writes_storeBytes]
    rcases mem_store_writes hl hx with hx | hx
    · exact hx.trans_le (hb.image hv).2.2
    · exact hb.addresses x hx
  held _ := (readable_writes (readable_of_inv hb hv) l).2

theorem inv_answer {b' : Block} {rsp : Word} (h : Answer b b' rsp) : b'.Inv := by
  cases h with
  | result | allocErr | faulted => exact hb
  | raised c => exact inv_withFault hb c
  | freed => exact inv_freed hb
  | wrote l ra rb rc hf hv hr hl => exact inv_writes hb hv hl
  | began w h l hf hw hh hfit hl => exact inv_writes (inv_newImage hb hw hh hfit) rfl hl

end Sys2Proof.Machine
end

section
/-! The invariants along a step (R21). -/

namespace Sys2Proof.Machine

/-- Settles O53: each clause at the reset state. -/
theorem invariantAtReset : Obligations.InvariantAtReset := inv_reset

/-- Settles O54, by the ways a step can end: idle, a reset, or one of the endings of a command. -/
theorem everyStepKeepsTheInvariant : Obligations.EveryStepKeepsTheInvariant := by
  intro s t hb h
  obtain ⟨-, rfl⟩ | ⟨rest, -, rfl⟩ | ⟨cmd, wdata, rest, -, b, rsp, rfl, hanswer⟩ := step_cases h
  · exact hb
  · exact inv_afterReset hb
  · exact inv_answer hb hanswer

end Sys2Proof.Machine
end

section
/-! Noninterference of the bytes that hold no cell (R19): twin blocks answer every operation alike, and stay twins. -/

namespace Sys2Proof.Machine

open Block

/-- Two blocks that no command can tell apart, each with a value in every byte of its image. -/
structure Block.Twin (b b' : Block) : Prop where
  alike : b.Alike b'
  readable : b.valid = true → b.Readable ∧ b'.Readable

namespace Block

variable {b b' : Block}

namespace Alike

variable (h : b.Alike b')
include h

theorem size : b.size = b'.size := by rw [Block.size, Block.size, h.w]

theorem isBarcode_iff : b.IsBarcode ↔ b'.IsBarcode := by rw [IsBarcode, IsBarcode, h.valid, h.w, h.h]

theorem inBounds (c r : Field) : inBounds b c r = inBounds b' c r := by rw [Machine.inBounds, Machine.inBounds, h.w, h.h]

theorem tooLarge (m n : Nat) : b.tooLarge m n = b'.tooLarge m n := by rw [Block.tooLarge, Block.tooLarge, h.storeBytes]

theorem cellWrite {c : Nat} (hc : c < b.w.toNat) (r : Nat) (v : Bool) : (b.cellWrite c r v).Alike (b'.cellWrite c r v) :=
  { h with
    cells := fun hv x y hx hy => by
      have hc' : c < b'.w.toNat := h.w ▸ hc
      have hx' : x < b'.w.toNat := h.w ▸ hx
      rw [cellRead_cellWrite b c r v hc hx, cellRead_cellWrite b' c r v hc' hx', h.cells hv x y hx hy] }

theorem writes {l : List (Nat × Nat × Bool)} (hl : ∀ x ∈ l, x.1 < b.w.toNat) : (b.writes l).Alike (b'.writes l) := by
  induction l generalizing b b' with
  | nil => exact h
  | cons x l ih =>
    exact ih (h.cellWrite (hl x List.mem_cons_self) _ _) fun y hy => hl y (List.mem_cons_of_mem x hy)

theorem newImage (w k : Field) : (b.newImage w k).Alike (b'.newImage w k) where
  valid := rfl
  w := rfl
  h := rfl
  fault := h.fault
  storeBytes := h.storeBytes
  cells _ c r hc hr := by rw [cellRead_newImage b w k hc hr, cellRead_newImage b' w k hc hr]

theorem computeChecksum (hb : b.IsBarcode) : b.computeChecksum = b'.computeChecksum := by
  obtain ⟨hw, hh⟩ := width_eq hb
  exact computeChecksum_congr h.size fun c hc r hr => h.cells hb.1 c r (by omega) (by omega)

theorem readChecksum (hb : b.IsBarcode) : b.readChecksum = b'.readChecksum := by
  obtain ⟨hw, hh⟩ := width_eq hb
  exact readChecksum_congr h.size (fun i hi => h.cells hb.1 _ _ (by omega) (by omega))
    (fun i hi => h.cells hb.1 _ _ (by omega) (by omega)) (h.cells hb.1 _ _ (by omega) (by omega))

/-- The verdict is a function of the side and of the two checksums. -/
theorem diagnose (hb : b.IsBarcode) : b.diagnose = b'.diagnose := by
  rw [Block.diagnose, Block.diagnose, cErr, cErr, rErr, rErr, bitMatches, bitMatches, referenceBit, referenceBit, h.size,
    h.computeChecksum hb, h.readChecksum hb]

end Alike

namespace Twin

variable (h : b.Twin b')
include h

theorem withFault (f : BitVec 4) : (b.withFault f).Twin (b'.withFault f) where
  alike := { h.alike with fault := rfl }
  readable := h.readable

/-- Without an image there is no cell to compare. -/
theorem cleared (f : BitVec 4) (m m' : Memory) :
    Twin { b with valid := false, w := 0, h := 0, fault := f, store := m }
      { b' with valid := false, w := 0, h := 0, fault := f, store := m' } where
  alike := ⟨rfl, rfl, rfl, rfl, h.alike.storeBytes, fun hv => absurd hv Bool.false_ne_true⟩
  readable hv := absurd hv Bool.false_ne_true

theorem freed : Twin { b with valid := false, w := 0, h := 0 } { b' with valid := false, w := 0, h := 0 } := by
  have := h.cleared b.fault b.store b'.store
  rwa [h.alike.fault] at this ⊢

theorem writes {l : List (Nat × Nat × Bool)} (hl : ∀ x ∈ l, x.1 < b.w.toNat) : (b.writes l).Twin (b'.writes l) where
  alike := h.alike.writes hl
  readable hv := by
    obtain ⟨hr, hr'⟩ := h.readable (by simpa using hv)
    exact ⟨readable_writes hr l, readable_writes hr' l⟩

theorem cellWrite {c : Nat} (hc : c < b.w.toNat) (r : Nat) (v : Bool) : (b.cellWrite c r v).Twin (b'.cellWrite c r v) :=
  h.writes (l := [(c, r, v)]) (by simpa using hc)

/-- An inversion writes the same value in both, because it reads the same cell of both. -/
theorem cellInvert (hv : b.valid = true) {c r : Nat} (hc : c < b.w.toNat) (hr : r < b.h.toNat) :
    (b.cellInvert c r).Twin (b'.cellInvert c r) := by
  rw [Block.cellInvert, Block.cellInvert, ← h.alike.cells hv c r hc hr]
  exact h.cellWrite hc r _

theorem newImage {w k : Field} (hfit : bytesFor w.toNat k.toNat ≤ b.storeBytes) :
    (b.newImage w k).Twin (b'.newImage w k) where
  alike := h.alike.newImage w k
  readable _ := ⟨readable_newImage b w k hfit, readable_newImage b' w k (h.alike.storeBytes ▸ hfit)⟩

theorem drawChecksum (hb : b.IsBarcode) (lc lr : Field) (bit : Bool) :
    (b.drawChecksum lc lr bit).Twin (b'.drawChecksum lc lr bit) := by
  rw [drawChecksum_eq_writes, drawChecksum_eq_writes, ← h.alike.size]
  exact h.writes fun x hx => (draw_inRange hb lc lr bit x hx).1

/-- Drawing the expected checksum: both blocks compute the same one. -/
theorem drawExpected (hb : b.IsBarcode) :
    (b.drawTriple b.computeChecksum).Twin (b'.drawTriple b'.computeChecksum) := by
  rw [← h.alike.computeChecksum hb]
  exact h.drawChecksum hb _ _ _

theorem fillData {n : Nat} (hn : n ≤ b.w.toNat) (value : Value) : (b.fillData n value).Twin (b'.fillData n value) := by
  rw [fillData_eq_writes, fillData_eq_writes]
  exact h.writes fun x hx => (fillList_lt hx).1.trans_le hn

end Twin

/-- The cell a correction inverts lies in the image (R106, R107). -/
theorem diagnose_corrected_le {c r : Nat} (hd : b.diagnose = .corrected c r) : c ≤ b.size ∧ r ≤ b.size := by
  rw [diagnose] at hd
  split_ifs at hd with heq
  cases ht : correctionTarget b.size b.cErr b.rErr b.bitMatches with
  | none => rw [ht] at hd; cases hd
  | some x => rw [ht] at hd; cases hd; exact correctionTarget_le ht

theorem Twin.flip (h : b.Twin b') (hb : b.IsBarcode) : (b.flip b.diagnose).Twin (b'.flip b.diagnose) := by
  cases hd : b.diagnose with
  | valid | uncorrectable => exact h
  | corrected c r =>
    obtain ⟨hw, hh⟩ := width_eq hb
    obtain ⟨hc, hr⟩ := diagnose_corrected_le hd
    exact h.cellInvert hb.1 (by omega) (by omega)

theorem toNat_succ_of_sideLegal {n : Field} (hn : sideLegal n = true) : (n + 1).toNat = n.toNat + 1 := by
  have hle := (sideLegal_iff.mp hn).2
  exact (BitVec.toNat_add n 1).trans (Nat.mod_eq_of_lt (show n.toNat + 1 < 256 by omega))

/-- The image RENDER begins is a barcode image (R20, R91). -/
theorem isBarcode_newImage (b : Block) {n : Field} (hn : sideLegal n = true) : (b.newImage (n + 1) (n + 1)).IsBarcode := by
  have hlegal := sideLegal_iff.mp hn
  have hside := toNat_succ_of_sideLegal hn
  refine ⟨rfl, rfl, ?_, ?_⟩ <;> simp only [newImage_w, hside, Config.barcodeMin, Config.barcodeMax] <;> omega

theorem Twin.rendered (h : b.Twin b') {n : Field} (hn : sideLegal n = true)
    (hfit : b.tooLarge (n.toNat + 1) (n.toNat + 1) = false) (value : Value) :
    (b.rendered n value).Twin (b'.rendered n value) := by
  have hside := toNat_succ_of_sideLegal hn
  have hnew : (b.newImage (n + 1) (n + 1)).Twin (b'.newImage (n + 1) (n + 1)) :=
    h.newImage (by rw [hside]; exact not_tooLarge.mp hfit)
  refine (hnew.fillData (by rw [newImage_w]; omega) value).drawExpected ?_
  rw [fillData_eq_writes]
  exact isBarcode_writes (isBarcode_newImage b hn) _

end Block

/-- Two machines with twin blocks, to which the host presents the same. -/
structure Twins (s s' : State) : Prop where
  block : s.block.Twin s'.block
  pending : s.pending = s'.pending
  wdata : s.wdata = s'.wdata

/-- When the first of two runs from `s` and `s'` answers a next state, so does the second: twin machines again, with the same new
responses. -/
def AnswersAlike (s s' : State) (o o' : Host.Outcome State Fault Refusal) : Prop :=
  ∀ t, o = .next t → ∃ t', o' = .next t' ∧ Twins t t' ∧
    ∃ new : List Word, t.responses = new ++ s.responses ∧ t'.responses = new ++ s'.responses

namespace AnswersAlike

variable {s s' : State} {k k' j j' : Host.Outcome State Fault Refusal}

theorem ite {p q : Prop} [Decidable p] [Decidable q] (hpq : p ↔ q) (hpos : p → AnswersAlike s s' k k')
    (hneg : ¬p → AnswersAlike s s' j j') : AnswersAlike s s' (if p then k else j) (if q then k' else j') := by
  by_cases hp : p
  · rw [if_pos hp, if_pos (hpq.mp hp)]
    exact hpos hp
  · rw [if_neg hp, if_neg (mt hpq.mpr hp)]
    exact hneg hp

variable (h : Twins s s')
include h

theorem respond {b b' : Block} {rsp rsp' : Word} (hb : b.Twin b') (hr : rsp = rsp') :
    AnswersAlike s s' (respond s b rsp) (respond s' b' rsp') := by
  rintro t ⟨⟩
  subst hr
  exact ⟨_, rfl, ⟨hb, h.pending, h.wdata⟩, [rsp], rfl, rfl⟩

theorem result {rsp rsp' : Word} (hr : rsp = rsp') :
    AnswersAlike s s' (Machine.respond s s.block rsp) (Machine.respond s' s'.block rsp') := respond h h.block hr

theorem raise (c : Cause) : AnswersAlike s s' (raise s c) (raise s' c) := respond h (h.block.withFault c.code) rfl

theorem unlessFaulted (hk : AnswersAlike s s' k k') : AnswersAlike s s' (unlessFaulted s k) (unlessFaulted s' k') :=
  ite (by rw [h.block.alike.fault]) (fun _ => result h (by rw [h.block.alike.fault])) fun _ => hk

theorem withImage (hk : s.block.valid = true → AnswersAlike s s' k k') :
    AnswersAlike s s' (withImage s k) (withImage s' k') :=
  unlessFaulted h (ite (by rw [h.block.alike.valid]) hk fun _ => raise h _)

theorem withCells (hv : s.block.valid = true) (hk : AnswersAlike s s' k k') :
    AnswersAlike s s' (withCells s k) (withCells s' k') := by
  obtain ⟨hr, hr'⟩ := h.block.readable hv
  rwa [withCells_ok hr, withCells_ok hr']

theorem atCell {c r : Field}
    (hk : s.block.valid = true → c.toNat < s.block.w.toNat → r.toNat < s.block.h.toNat → AnswersAlike s s' k k') :
    AnswersAlike s s' (atCell s c r k) (atCell s' c r k') :=
  withImage h fun hv => ite (by rw [h.block.alike.inBounds])
    (fun hin => withCells h hv (hk hv (inBounds_iff.mp hin).1 (inBounds_iff.mp hin).2)) fun _ => raise h _

theorem withBarcode (hk : s.block.IsBarcode → AnswersAlike s s' k k') :
    AnswersAlike s s' (withBarcode s k) (withBarcode s' k') :=
  withImage h fun _ => ite h.block.alike.isBarcode_iff hk fun _ => raise h _

theorem illegalCommand : AnswersAlike s s' (illegalCommand s) (illegalCommand s') := unlessFaulted h (raise h _)

/-- Every command answers twin machines alike. -/
theorem exec (i : Instr) : AnswersAlike s s' (exec i s) (exec i s') := by
  have halike := h.block.alike
  cases i with
  | create w k =>
    refine unlessFaulted h (ite Iff.rfl (fun _ => raise h _) fun _ => ite (by rw [halike.tooLarge]) (fun _ => result h rfl) ?_)
    intro hfit
    exact respond h (h.block.newImage (not_tooLarge.mp (Bool.eq_false_of_not_eq_true hfit))) rfl
  | free => exact withImage h fun _ => respond h h.block.freed rfl
  | size => exact withImage h fun _ => result h (by rw [halike.w, halike.h])
  | get c r => exact atCell h fun hv hc hr => result h (by rw [halike.cells hv _ _ hc hr])
  | set c r v => exact atCell h fun _ hc _ => respond h (h.block.cellWrite hc _ v) rfl
  | invert c r => exact atCell h fun hv hc hr => respond h (h.block.cellInvert hv hc hr) rfl
  | csComp => exact withBarcode h fun hb => withCells h hb.1 (result h (by rw [halike.computeChecksum hb]))
  | csDraw lc lr b =>
    exact withBarcode h fun hb => ite Iff.rfl (fun _ => raise h _) fun _ =>
      withCells h hb.1 (respond h (h.block.drawChecksum hb lc lr _) rfl)
  | csRead => exact withBarcode h fun hb => withCells h hb.1 (result h (by rw [halike.readChecksum hb]))
  | csRend =>
    exact withBarcode h fun hb => withCells h hb.1 (ite (by rw [halike.computeChecksum hb]) (fun _ => raise h _) fun _ =>
      respond h (h.block.drawExpected hb) rfl)
  | render n =>
    refine unlessFaulted h (ite Iff.rfl (fun _ => raise h _) fun hn => ite (by rw [h.wdata]) (fun _ => raise h _) fun _ =>
      ite (by rw [halike.tooLarge]) (fun _ => result h rfl) fun hfit => ?_)
    rw [← h.wdata]
    exact respond h (h.block.rendered (by simpa using hn) (Bool.eq_false_of_not_eq_true hfit) s.wdata) rfl
  | validate =>
    refine withBarcode h fun hb => withCells h hb.1 ?_
    rw [← halike.diagnose hb]
    exact respond h (h.block.flip hb) rfl

end AnswersAlike

theorem Twins.accept {s s' : State} (h : Twins s s') (wdata : Value) (rest : List HostMove) :
    Twins (accept wdata rest s) (accept wdata rest s') := ⟨h.block, rfl, rfl⟩

/-- Every move of the host is answered alike by twin machines. -/
theorem AnswersAlike.step {s s' : State} (h : Twins s s') : AnswersAlike s s' (step s) (step s') := by
  cases hp : s.pending with
  | nil =>
    rw [step_idle hp, step_idle (h.pending ▸ hp)]
    rintro t ⟨⟩
    exact ⟨s', rfl, h, [], rfl, rfl⟩
  | cons move rest =>
    have hp' := h.pending ▸ hp
    cases move with
    | reset =>
      rw [step_reset hp, step_reset hp']
      rintro t ⟨⟩
      exact ⟨_, rfl, ⟨h.block.cleared 0 [] [], rfl, h.wdata⟩, [], rfl, rfl⟩
    | command cmd wdata =>
      cases hd : decode cmd with
      | ok i =>
        rw [step_command hp hd, step_command hp' hd]
        exact AnswersAlike.exec (h.accept wdata rest) i
      | error r =>
        rw [step_illegal hp hd, step_illegal hp' hd]
        exact AnswersAlike.illegalCommand (h.accept wdata rest)

/-- Settles O59: machines that agree in their cells are twins, and twins answer every move alike. -/
theorem storeBytesAreUnobservable : Obligations.StoreBytesAreUnobservable := by
  intro s s' t halike hreadable hpending hwdata h
  obtain ⟨t', h', htwins, hresponses⟩ := AnswersAlike.step ⟨⟨halike, hreadable⟩, hpending, hwdata⟩ t h
  exact ⟨t', h', htwins.block.alike, htwins.block.readable, htwins.pending, htwins.wdata, hresponses⟩

end Sys2Proof.Machine
end

section
/-! What a faulted block answers (R127), the image's registers (R15), and reset (R137). -/

namespace Sys2Proof.Machine

variable {s t : State} {k : Host.Outcome State Fault Refusal}

/-- The machine after a command was presented to a faulted block: the recorded cause once more, the block untouched (R127). -/
def faultRepeated (s : State) (wdata : Value) (rest : List HostMove) : State :=
  answered (accept wdata rest s) s.block (rspWord 2 s.block.fault.toNat 0 0)

theorem exec_faulted (hf : s.block.fault ≠ 0) (i : Instr) :
    exec i s = .next (answered s s.block (rspWord 2 s.block.fault.toNat 0 0)) := by
  cases i with
  | create | render => exact unlessFaulted_faulted hf
  | free | size | get | set | invert | csComp | csDraw | csRead | csRend | validate => exact withImage_faulted hf

theorem step_command_faulted (hf : s.block.fault ≠ 0) {cmd : Word} {wdata : Value} {rest : List HostMove}
    (hp : s.pending = .command cmd wdata :: rest) : step s = .next (faultRepeated s wdata rest) := by
  cases hd : decode cmd with
  | ok i => exact (step_command hp hd).trans (exec_faulted (s := accept wdata rest s) hf i)
  | error r => exact (step_illegal hp hd).trans (unlessFaulted_faulted hf)

theorem run_succ (M : Host.Core) {s t : M.State} (k : Nat) (h : M.step s = .next t) : M.run (k + 1) s = M.run k t := by
  rw [Host.Core.run, h]

/-- Settles O9, by induction on the number of steps: one command repeats the response, with none left the machine idles. -/
theorem faultStaysThroughAnyCommands : Obligations.FaultStaysThroughAnyCommands := by
  intro k
  induction k with
  | zero => intro s _ _; exact ⟨s, rfl, rfl, rfl, by simp⟩
  | succ k ih =>
    intro s hf honly
    match hp : s.pending with
    | [] =>
      obtain ⟨t, hrun, hblock, hpending, hresponses⟩ := ih s hf honly
      exact ⟨t, (run_succ core k (step_idle hp)).trans hrun, hblock, by simpa [hp] using hpending,
        by simpa [hp] using hresponses⟩
    | .reset :: rest => simp [hp, onlyCommands] at honly
    | .command cmd wdata :: rest =>
      have honly' : onlyCommands rest = true := by simpa [hp, onlyCommands] using honly
      obtain ⟨t, hrun, hblock, hpending, hresponses⟩ := ih (faultRepeated s wdata rest) hf honly'
      refine ⟨t, (run_succ core k (step_command_faulted hf hp)).trans hrun, hblock, hpending, ?_⟩
      rw [hresponses, List.length_cons, Nat.add_min_add_right, List.replicate_succ']
      simp [faultRepeated]

/-! ## The registers of the image -/

/-- `valid`, `W` and `H` are the same. -/
def Block.SameImage (b b' : Block) : Prop := b'.valid = b.valid ∧ b'.w = b.w ∧ b'.h = b.h

theorem Block.SameImage.refl (b : Block) : b.SameImage b := ⟨rfl, rfl, rfl⟩

theorem Block.sameImage_writes (b : Block) (l : List (Nat × Nat × Bool)) : b.SameImage (b.writes l) :=
  ⟨writes_valid b l, writes_w b l, writes_h b l⟩

theorem Block.sameImage_drawChecksum (b : Block) (lc lr : Field) (bit : Bool) : b.SameImage (b.drawChecksum lc lr bit) :=
  ⟨drawChecksum_valid b lc lr bit, drawChecksum_w b lc lr bit, drawChecksum_h b lc lr bit⟩

/-- Only an answer OK with payload 0 changes the registers of the image. -/
theorem Answer.sameImage_or_ok {b b' : Block} {rsp : Word} (h : Answer b b' rsp) :
    b.SameImage b' ∨ rsp = rspWord 0 0 0 0 := by
  cases h with
  | result | allocErr | faulted => exact .inl (.refl b)
  | raised c => exact .inl ⟨rfl, rfl, rfl⟩
  | wrote l => exact .inl (b.sameImage_writes l)
  | freed | began => exact .inr (okResponse_eq 0 0 0)

/-- If the outcome is a next state, the registers of the image are those of `s`. -/
def KeepsImage (s : State) (o : Host.Outcome State Fault Refusal) : Prop := ∀ t, o = .next t → s.block.SameImage t.block

namespace KeepsImage

theorem respond {b : Block} {rsp : Word} (h : s.block.SameImage b) : KeepsImage s (respond s b rsp) := by
  rintro t ⟨⟩
  exact h

theorem result {rsp : Word} : KeepsImage s (Machine.respond s s.block rsp) := respond (.refl _)

theorem raise {c : Cause} : KeepsImage s (raise s c) := respond ⟨rfl, rfl, rfl⟩

theorem unlessFaulted (hk : KeepsImage s k) : KeepsImage s (unlessFaulted s k) := by
  rw [Machine.unlessFaulted]
  split_ifs
  · exact result
  · exact hk

theorem withImage (hk : KeepsImage s k) : KeepsImage s (withImage s k) := by
  refine unlessFaulted ?_
  split_ifs
  · exact hk
  · exact raise

theorem withCells (hk : KeepsImage s k) : KeepsImage s (withCells s k) := fun t h => hk t (withCells_next h).2

theorem atCell (c r : Field) (hk : KeepsImage s k) : KeepsImage s (atCell s c r k) := by
  refine withImage ?_
  split_ifs
  · exact withCells hk
  · exact raise

theorem withBarcode (hk : KeepsImage s k) : KeepsImage s (withBarcode s k) := by
  refine withImage ?_
  split_ifs
  · exact hk
  · exact raise

/-- The commands that make no image and free none (R21 (d)). -/
theorem exec {i : Instr} (hfree : i ≠ .free) (hcreate : ∀ w h, i ≠ .create w h) (hrender : ∀ n, i ≠ .render n) :
    KeepsImage s (Machine.exec i s) := by
  cases i with
  | create w h => exact absurd rfl (hcreate w h)
  | free => exact absurd rfl hfree
  | render n => exact absurd rfl (hrender n)
  | size => exact withImage result
  | get c r => exact atCell c r result
  | set c r v => exact atCell c r (respond (Block.sameImage_writes _ [(c.toNat, r.toNat, v)]))
  | invert c r =>
    refine atCell c r (respond ?_)
    rw [Block.cellInvert_eq_writes]
    exact Block.sameImage_writes _ _
  | csComp | csRead => exact withBarcode (withCells result)
  | csDraw lc lr b =>
    refine withBarcode ?_
    split_ifs
    · exact raise
    · exact withCells (respond (Block.sameImage_drawChecksum ..))
  | csRend =>
    refine withBarcode (withCells ?_)
    split_ifs
    · exact raise
    · exact respond (Block.sameImage_drawChecksum ..)
  | validate =>
    refine withBarcode (withCells (respond ?_))
    cases s.block.diagnose with
    | valid | uncorrectable => exact .refl _
    | corrected c r => exact ⟨rfl, rfl, rfl⟩

end KeepsImage

/-- Settles O57: every ending that changes the registers answers OK with payload 0, and the other nine commands change none. -/
theorem dimensionsChangeWithTheImage : Obligations.DimensionsChangeWithTheImage := by
  intro i s t h hchanged
  have hnot : ¬ s.block.SameImage t.block := by
    rintro ⟨hv, hw, hh⟩
    obtain h | h | h := hchanged
    exacts [h hw, h hh, h hv]
  constructor
  · obtain ⟨b, rsp, rfl, hanswer⟩ := exec_effect h
    obtain hsame | rfl := hanswer.sameImage_or_ok
    · exact absurd hsame hnot
    · rfl
  · by_contra hother
    push Not at hother
    obtain ⟨hfree, hcreate, hrender⟩ := hother
    exact hnot (KeepsImage.exec hfree hcreate hrender t h)

/-- Settles O52, from the equation of the reset move. -/
theorem resetLeavesNoImage : Obligations.ResetLeavesNoImage :=
  ⟨⟨rfl, rfl, rfl, rfl⟩, fun s _ hp => ⟨s.block.afterReset, step_reset hp, rfl, rfl, rfl, rfl, rfl, rfl⟩⟩

end Sys2Proof.Machine
end

section
/-! One cell of the image: what GET answers (R64), and what a single cell write changes and leaves (R32). -/

namespace Sys2Proof.Machine

namespace Block

variable (b : Block)

/-- The cell is its bit of the byte that holds it (R30, R31). -/
theorem cellRead_of_read? {c r : Nat} {byte : Byte} (h : Memory.read? b.store (b.byteAddr c r) = some byte) :
    b.cellRead c r = byte.getLsbD (b.idx c r % 8) := by
  simp [cellRead, memRead, h]

theorem cellRead_cellWrite_other {c r c' r' : Nat} (v : Bool) (hc : c < b.w.toNat) (hc' : c' < b.w.toNat)
    (hne : (c', r') ≠ (c, r)) : (b.cellWrite c r v).cellRead c' r' = b.cellRead c' r' := by
  rw [cellRead_cellWrite b c r v hc hc', if_neg (by simpa using hne)]

/-- The other bits of the written byte keep their value (R32). -/
theorem sameByte_cellWrite_other (c r : Nat) (v : Bool) {k : Nat} (hk : k < 8) (hne : k ≠ b.idx c r % 8) :
    ((b.cellWrite c r v).memRead (b.byteAddr c r)).getLsbD k = (b.memRead (b.byteAddr c r)).getLsbD k := by
  rw [memRead_cellWrite, if_pos rfl, getLsbD_putBit _ (Nat.mod_lt _ (by decide)) v hk, if_neg hne]

end Block

variable {s : State} {c r : Field}

theorem okResponse_zero : okResponse 0 0 0 = rspWord 0 0 0 0 := okResponse_eq 0 0 0

theorem exec_get_cell (hi : HasImage s) (hc : c.toNat < s.block.w.toNat) (hr : r.toNat < s.block.h.toNat) :
    exec (.get c r) s =
      .next (answered s s.block (rspWord 0 0 0 (s.block.cellRead c.toNat r.toNat).toNat)) := by
  rw [exec_get_ok hi hc hr, okResponse_eq, toNat_cellResult]
  rfl

/-- Settles O21: the cell GET answers is its bit of the byte that holds it. -/
theorem getAnswersTheCell : Obligations.GetAnswersTheCell := by
  intro s c r byte hi hc hr hbyte
  rw [exec_get_cell hi hc hr, s.block.cellRead_of_read? hbyte]
  rfl

/-- Settles O22, from the laws of one cell write. -/
theorem setWritesOneCell : Obligations.SetWritesOneCell := by
  intro s c r v hi hc hr
  have ⟨hf, hv, _⟩ := hi
  refine ⟨s.block.cellWrite c.toNat r.toNat v, ?_, hv, rfl, rfl, hf, rfl, ?_, ?_, ?_, ?_⟩
  · rw [exec_set_ok hi hc hr, okResponse_zero]
  · exact s.block.cellRead_cellWrite_same _ _ v hc
  · exact fun c' r' hc' _ hne => s.block.cellRead_cellWrite_other v hc hc' hne
  · exact fun a ha => s.block.read?_cellWrite_other _ _ v ha
  · exact fun k hk hne => s.block.sameByte_cellWrite_other _ _ v hk hne

/-- Settles O23: an inversion is a write of the complement, and two of them restore a held cell. -/
theorem invertComplementsOneCell : Obligations.InvertComplementsOneCell := by
  intro s c r hi hc hr
  have ⟨hf, hv, _, hheld⟩ := hi
  refine ⟨s.block.cellInvert c.toNat r.toNat, ?_, hv, rfl, rfl, hf, rfl, ?_, ?_, ?_, fun hwf => ?_⟩
  · rw [exec_invert_ok hi hc hr, okResponse_zero]
  · exact s.block.cellRead_cellWrite_same _ _ _ hc
  · exact fun c' r' hc' _ hne => s.block.cellRead_cellWrite_other _ hc hc' hne
  · exact fun a ha => s.block.read?_cellWrite_other _ _ _ ha
  · have hi' : HasImage (answered s (s.block.cellInvert c.toNat r.toNat) (rspWord 0 0 0 0)) := by
      rw [Block.cellInvert_eq_writes]
      exact hasImage_writes hi _ _
    exact ⟨_, exec_invert_ok hi' hc hr,
      Block.cellInvert_cellInvert hwf hc (hheld _ (s.block.byteAddr_lt_usedBytes hc hr))⟩

end Sys2Proof.Machine
end

section
/-! CREATE and a list of SETs, then GET (R39). -/

namespace Sys2Proof.Machine

variable {s t : State}

theorem execAll_cons {i : Instr} (is : List Instr) (h : exec i s = .next t) : execAll (i :: is) s = execAll is t := by
  rw [execAll, h]

theorem reply_get {c r : Field} (hi : HasImage s) (hc : c.toNat < s.block.w.toNat) (hr : r.toNat < s.block.h.toNat) :
    reply (.get c r) s = some (rspWord 0 0 0 (s.block.cellRead c.toNat r.toNat).toNat) := by
  rw [reply, exec_get_cell hi hc hr]
  rfl

/-- The cell write of a SET with these operands. -/
def cellWriteOf (x : Field × Field × Bool) : Nat × Nat × Bool := (x.1.toNat, x.2.1.toNat, x.2.2)

/-- SETs inside the image run, and together they are a list of cell writes. -/
theorem execAll_set (writes : List (Field × Field × Bool)) (hi : HasImage s)
    (hin : ∀ x ∈ writes, x.1.toNat < s.block.w.toNat ∧ x.2.1.toNat < s.block.h.toNat) :
    ∃ t, execAll (writes.map fun x => .set x.1 x.2.1 x.2.2) s = .next t ∧ HasImage t ∧
      t.block = s.block.writes (writes.map cellWriteOf) := by
  induction writes generalizing s with
  | nil => exact ⟨s, rfl, hi, rfl⟩
  | cons x xs ih =>
    obtain ⟨hc, hr⟩ := hin x List.mem_cons_self
    obtain ⟨t, hrun, hit, hblock⟩ := ih (hasImage_writes hi [cellWriteOf x] (okResponse 0 0 0))
      fun y hy => hin y (List.mem_cons_of_mem x hy)
    exact ⟨t, (execAll_cons _ (exec_set_ok hi hc hr)).trans hrun, hit, hblock⟩

/-- In an image whose cell `(c, r)` is 0, cell writes leave there the last value written to it (R39 (b)). -/
theorem cellRead_writes_lastWrite {b : Block} {writes : List (Field × Field × Bool)} {c r : Field}
    (hin : ∀ x ∈ writes, x.1.toNat < b.w.toNat) (hc : c.toNat < b.w.toNat)
    (hzero : b.cellRead c.toNat r.toNat = false) :
    (b.writes (writes.map cellWriteOf)).cellRead c.toNat r.toNat = lastWrite writes c r := by
  have hin' : ∀ x ∈ writes.map cellWriteOf, x.1 < b.w.toNat := List.forall_mem_map.mpr hin
  rw [Block.cellRead_writes b _ hin' hc, List.foldl_map, hzero]
  simp only [cellWriteOf, BitVec.toNat_inj, lastWrite]

/-- Settles O26: CREATE leaves every cell 0, and the SETs after it are a list of cell writes. -/
theorem lastWriteWins : Obligations.LastWriteWins := by
  intro s w h writes c r hf hw hh hfit hin hc hr
  obtain ⟨t, hrun, hit, hblock⟩ := execAll_set writes (hasImage_newImage hf hfit (okResponse 0 0 0)) hin
  rw [answered_block] at hblock
  refine ⟨t, (execAll_cons _ (exec_create_ok hf hw hh hfit)).trans hrun, ?_⟩
  rw [reply_get hit (by simpa [hblock] using hc) (by simpa [hblock] using hr), hblock,
    cellRead_writes_lastWrite (fun x hx => (hin x hx).1) hc (Block.cellRead_newImage s.block w h hc hr)]

end Sys2Proof.Machine
end

section
/-! The border a block draws from its own data: its cells hold the parities of rows, columns and the whole data region
(R73 to R79), which the sums of `Safety` count. -/

namespace Sys2Proof.Machine

theorem code_tri (bit : Bool) : (tri bit).code.getLsbD 0 = bit := by cases bit <;> rfl

/-- A parity tree over `f 0 .. f (n-1)` is the sum of these bits mod 2. -/
theorem toNat_parityOf_range (n : Nat) (f : Nat → Bool) :
    (parityOf ((List.range n).map f)).toNat = (∑ i ∈ Finset.range n, (f i).toNat) % 2 := by
  rw [toNat_parityOf, List.map_map]
  rfl

namespace Block

variable {b : Block}

theorem toNat_rowPar (b : Block) (i : Nat) : (b.rowPar i).toNat = b.rowSum i % 2 := toNat_parityOf_range _ _

theorem toNat_colPar (b : Block) (i : Nat) : (b.colPar i).toNat = b.colSum i % 2 := toNat_parityOf_range _ _

/-- The parity of the whole data region, by rows. -/
def dataPar (b : Block) : Bool := parityOf ((List.range b.size).map b.rowPar)

/-- The same parity by columns: the two exclusive-ors exchange (R86). -/
theorem dataPar_eq_columns (b : Block) : b.dataPar = parityOf ((List.range b.size).map b.colPar) :=
  parityOf_swap b.size b.size fun i j => b.cellRead j i

theorem toNat_dataPar (b : Block) : b.dataPar.toNat = b.dataSum % 2 := by
  simp only [dataPar, toNat_parityOf_range, toNat_rowPar, dataSum]
  exact (Finset.sum_nat_mod ..).symm

/-- Both labels have the parity of the data region, so the expected bit is that parity (R77, R86). -/
theorem computeChecksum_bit (hsize : b.size ≤ 8) : b.computeChecksum.bit = tri b.dataPar := by
  have hlc : labelParity (labelOf b.size b.rowPar) = b.dataPar := labelParity_labelOf hsize _
  have hlr : labelParity (labelOf b.size b.colPar) = b.dataPar :=
    (labelParity_labelOf hsize _).trans b.dataPar_eq_columns.symm
  simp only [computeChecksum, combinedParity_eq, hlc, hlr]
  simp

theorem computeChecksum_lc (hsize : b.size ≤ 8) {i : Nat} (hi : i < b.size) :
    b.computeChecksum.lc.getLsbD i = b.rowPar i := by
  rw [computeChecksum, getLsbD_labelOf _ _ (by omega)]
  simp [hi]

theorem computeChecksum_lr (hsize : b.size ≤ 8) {i : Nat} (hi : i < b.size) :
    b.computeChecksum.lr.getLsbD i = b.colPar i := by
  rw [computeChecksum, getLsbD_labelOf _ _ (by omega)]
  simp [hi]

/-- The block with the border drawn from its own data, as CSREND and RENDER leave it (R85, R93). -/
def drawExpected (b : Block) : Block := b.drawTriple b.computeChecksum

@[simp] theorem drawExpected_valid (b : Block) : b.drawExpected.valid = b.valid := by simp [drawExpected, drawTriple]
@[simp] theorem drawExpected_w (b : Block) : b.drawExpected.w = b.w := by simp [drawExpected, drawTriple]
@[simp] theorem drawExpected_h (b : Block) : b.drawExpected.h = b.h := by simp [drawExpected, drawTriple]
@[simp] theorem drawExpected_fault (b : Block) : b.drawExpected.fault = b.fault := by simp [drawExpected, drawTriple]
@[simp] theorem drawExpected_storeBytes (b : Block) : b.drawExpected.storeBytes = b.storeBytes := by
  simp [drawExpected, drawTriple]
@[simp] theorem drawExpected_size (b : Block) : b.drawExpected.size = b.size := by simp [drawExpected, drawTriple]

section Border

variable (hb : b.IsBarcode)
include hb

theorem cellRead_drawExpected_data {c r : Nat} (hc : c < b.size) (hr : r < b.size) :
    b.drawExpected.cellRead c r = b.cellRead c r := by
  have hw := size_lt hb
  rw [drawExpected, drawTriple, cellRead_drawChecksum b _ _ _ (by omega), if_neg (by omega), if_neg (by omega),
    if_neg (by omega)]

theorem rowSum_drawExpected {i : Nat} (hi : i < b.size) : b.drawExpected.rowSum i = b.rowSum i := by
  rw [rowSum, rowSum, drawExpected_size]
  exact Finset.sum_congr rfl fun j hj => by rw [cellRead_drawExpected_data hb (Finset.mem_range.mp hj) hi]

theorem colSum_drawExpected {i : Nat} (hi : i < b.size) : b.drawExpected.colSum i = b.colSum i := by
  rw [colSum, colSum, drawExpected_size]
  exact Finset.sum_congr rfl fun j hj => by rw [cellRead_drawExpected_data hb hi (Finset.mem_range.mp hj)]

theorem dataSum_drawExpected : b.drawExpected.dataSum = b.dataSum := by
  rw [dataSum, dataSum, drawExpected_size]
  exact Finset.sum_congr rfl fun i hi => rowSum_drawExpected hb (Finset.mem_range.mp hi)

theorem cellRead_drawExpected_column {i : Nat} (hi : i < b.size) :
    (b.drawExpected.cellRead b.size i).toNat = b.rowSum i % 2 := by
  rw [← toNat_rowPar, ← computeChecksum_lc (size_le hb) hi, drawExpected, drawTriple,
    cellRead_drawChecksum b _ _ _ (size_lt hb), if_neg (by omega), if_pos ⟨rfl, hi⟩]

theorem cellRead_drawExpected_row {i : Nat} (hi : i < b.size) :
    (b.drawExpected.cellRead i b.size).toNat = b.colSum i % 2 := by
  have hw := size_lt hb
  rw [← toNat_colPar, ← computeChecksum_lr (size_le hb) hi, drawExpected, drawTriple,
    cellRead_drawChecksum b _ _ _ (by omega), if_neg (by omega), if_neg (by omega), if_pos ⟨rfl, hi⟩]

theorem cellRead_drawExpected_corner : (b.drawExpected.cellRead b.size b.size).toNat = b.dataSum % 2 := by
  rw [← toNat_dataPar, drawExpected, drawTriple, cellRead_drawChecksum b _ _ _ (size_lt hb), if_pos ⟨rfl, rfl⟩,
    computeChecksum_bit (size_le hb), code_tri]

end Border

end Block

end Sys2Proof.Machine
end

section
/-! RENDER: a new image, the value in its data region, and the border drawn from it (R93). -/

namespace Sys2Proof.Machine

namespace Block

variable (b : Block) {n : Field} (value : Value)

/-- The image of RENDER before its border is drawn. -/
def dataImage (n : Field) : Block := (b.newImage (n + 1) (n + 1)).fillData n.toNat value

theorem rendered_eq (n : Field) : b.rendered n value = (b.dataImage value n).drawExpected := rfl

@[simp] theorem rendered_valid (n : Field) : (b.rendered n value).valid = true := by simp [rendered_eq, dataImage]
@[simp] theorem rendered_w (n : Field) : (b.rendered n value).w = n + 1 := by simp [rendered_eq, dataImage]
@[simp] theorem rendered_h (n : Field) : (b.rendered n value).h = n + 1 := by simp [rendered_eq, dataImage]
@[simp] theorem rendered_fault (n : Field) : (b.rendered n value).fault = b.fault := by simp [rendered_eq, dataImage]
@[simp] theorem rendered_storeBytes (n : Field) : (b.rendered n value).storeBytes = b.storeBytes := by
  simp [rendered_eq, dataImage]

theorem dataImage_eq_writes (n : Field) :
    b.dataImage value n = (b.newImage (n + 1) (n + 1)).writes (fillList n.toNat value) := fillData_eq_writes _ _ _

/-- Writes inside the image leave the bytes beyond it as they were (R32). -/
theorem read?_writes_beyond {b : Block} {l : List (Nat × Nat × Bool)}
    (hl : ∀ x ∈ l, x.1 < b.w.toNat ∧ x.2.1 < b.h.toNat) {a : Nat} (ha : b.usedBytes ≤ a) :
    Memory.read? (b.writes l).store a = Memory.read? b.store a :=
  b.read?_writes_other l fun x hx => by
    obtain ⟨hc, hr⟩ := hl x hx
    have := b.byteAddr_lt_usedBytes hc hr
    omega

section Legal

variable (hn : sideLegal n = true)
include hn

theorem isBarcode_dataImage : (b.dataImage value n).IsBarcode := by
  rw [dataImage_eq_writes]
  exact isBarcode_writes (isBarcode_newImage b hn) _

theorem size_dataImage : (b.dataImage value n).size = n.toNat := by
  rw [dataImage, fillData_size, size, newImage_w, toNat_succ_of_sideLegal hn, Nat.add_sub_cancel]

theorem cellRead_dataImage {c r : Nat} (hc : c < n.toNat) (hr : r < n.toNat) :
    (b.dataImage value n).cellRead c r = value.getLsbD (r * n.toNat + c) := by
  have hside := toNat_succ_of_sideLegal hn
  rw [dataImage, cellRead_fillData _ _ _ (by rw [newImage_w]; omega) (by rw [newImage_w]; omega), if_pos ⟨hc, hr⟩]

/-- RENDER touches no byte beyond its image (R93). -/
theorem read?_rendered_beyond {a : Nat} (ha : ((n.toNat + 1) * (n.toNat + 1) + 7) / 8 ≤ a) :
    Memory.read? (b.rendered n value).store a = Memory.read? b.store a := by
  have hside := toNat_succ_of_sideLegal hn
  have hbeyond : bytesFor (n + 1).toNat (n + 1).toNat ≤ a := by rwa [bytesFor, hside]
  have hdata : Memory.read? (b.dataImage value n).store a = Memory.read? (b.newImage (n + 1) (n + 1)).store a := by
    rw [dataImage_eq_writes]
    refine read?_writes_beyond (fun x hx => ?_) hbeyond
    have := fillList_lt hx
    simp only [newImage_w, newImage_h, hside]
    omega
  have hborder : Memory.read? (b.rendered n value).store a = Memory.read? (b.dataImage value n).store a := by
    rw [rendered_eq, drawExpected, drawTriple, drawChecksum_eq_writes]
    exact read?_writes_beyond (draw_inRange (isBarcode_dataImage b value hn) _ _ _)
      (by rwa [usedBytes, dataImage, fillData_w, fillData_h])
  rw [hborder, hdata, newImage_store, Memory.read?_clear, if_neg (Nat.not_lt.mpr hbeyond)]

end Legal

end Block

open Block

/-- Settles O37: the data region is the fill, the border is drawn from it, and all writes lie in the image. -/
theorem renderMakesTheBarcode : Obligations.RenderMakesTheBarcode := by
  intro s n hf h1 h8 hvalue hfit
  have hn : sideLegal n = true := sideLegal_iff.mpr ⟨h1, h8⟩
  have hside := toNat_succ_of_sideLegal hn
  have hbarcode := isBarcode_dataImage s.block s.wdata hn
  have hsize := size_dataImage s.block s.wdata hn
  refine ⟨s.block.rendered n s.wdata, ?_, rendered_valid .., by rw [rendered_w, hside], by rw [rendered_h, hside],
    (rendered_fault ..).trans hf, rendered_storeBytes .., ?_, ?_, ?_, ?_⟩
  · rw [exec_render_ok hf h1 h8 hvalue hfit, okResponse_zero]
  · intro c hc r hr
    rw [rendered_eq, cellRead_drawExpected_data hbarcode (by omega) (by omega), cellRead_dataImage _ _ hn hc hr]
  · intro i hi
    rw [← hsize] at hi ⊢
    rw [rendered_eq, cellRead_drawExpected_column hbarcode hi, cellRead_drawExpected_row hbarcode hi,
      rowSum_drawExpected hbarcode hi, colSum_drawExpected hbarcode hi]
    exact ⟨rfl, rfl⟩
  · rw [rendered_eq, ← hsize, cellRead_drawExpected_corner hbarcode, dataSum_drawExpected hbarcode]
  · exact fun a ha => read?_rendered_beyond s.block s.wdata hn ha

end Sys2Proof.Machine
end

section
/-! The pad bits, which belong to no cell, stay 0 (R30, R32). -/

namespace Sys2Proof.Machine

open Block

variable {b : Block}

theorem padZero_of_noImage (hv : b.valid = false) : b.PadZero := fun hv' => absurd hv' (by simp [hv])

/-- Every bit of the bytes CREATE and RENDER clear is 0 (R61, R93). -/
theorem padZero_newImage (b : Block) (w h : Field) : (b.newImage w h).PadZero := by
  intro _ i _ hi
  have hlt : i / 8 < bytesFor w.toNat h.toNat := Nat.div_lt_of_lt_mul hi
  simp [memRead, Memory.read?_clear, hlt]

/-- A pad bit is the bit of no cell, so writes to cells leave it. -/
theorem padZero_writes (hpad : b.PadZero) {l : List (Nat × Nat × Bool)}
    (hl : ∀ x ∈ l, x.1 < b.w.toNat ∧ x.2.1 < b.h.toNat) : (b.writes l).PadZero := by
  intro hv i hi hi'
  rw [writes_valid] at hv
  rw [writes_w, writes_h] at hi hi'
  have hother : ∀ x ∈ l, i ≠ b.idx x.1 x.2.1 := fun x hx => by
    obtain ⟨hc, hr⟩ := hl x hx
    have := b.idx_lt hc hr
    omega
  rw [bit_writes_other b l hother]
  exact hpad hv i hi hi'

theorem padZero_answer (hpad : b.PadZero) {b' : Block} {rsp : Word} (h : Answer b b' rsp) : b'.PadZero := by
  cases h with
  | result | allocErr | faulted => exact hpad
  | raised c => exact hpad
  | freed => exact padZero_of_noImage rfl
  | wrote l ra rb rc hf hv hr hl => exact padZero_writes hpad hl
  | began w h l hf hw hh hfit hl => exact padZero_writes (padZero_newImage b w h) hl

/-- Settles O56, by the ways a step can end: idle, a reset, or one of the endings of a command. -/
theorem padBitsStayZero : Obligations.PadBitsStayZero := by
  intro s t _ hpad h
  obtain ⟨-, rfl⟩ | ⟨rest, -, rfl⟩ | ⟨cmd, wdata, rest, -, b, rsp, rfl, hanswer⟩ := step_cases h
  · exact hpad
  · exact padZero_of_noImage rfl
  · exact padZero_answer hpad hanswer

end Sys2Proof.Machine
end

section
/-! A command word is its five fields (R42): the decoder gives the command whose fields they are, or one of the clauses of R53
holds of them; no clause holds of the fields of a command. -/

namespace Sys2Proof

/-! ## The wire code of `Tri` (R51) -/

theorem Tri.ofCode?_code (b : Tri) : Tri.ofCode? b.code = some b := by cases b <;> rfl

theorem Tri.code_of_ofCode? : ∀ (c : BitVec 2) (b : Tri), Tri.ofCode? c = some b → c = b.code := by decide

theorem Tri.reserved_of_ofCode? {c : BitVec 2} : Tri.ofCode? c = none → c = 0b10#2 := by decide +revert

/-! ## Words and fields -/

/-- The word that holds these fields, with `Z = 0` (R42). -/
def CmdFields.word (f : CmdFields) : Word := packCommand f.op f.a f.b f.cf

theorem fields_set (c r : Field) (v : Bool) : (Instr.set c r v).fields = ⟨0x5, c, r, 0#1 ++ BitVec.ofBool v, 0⟩ := by
  cases v <;> rfl

theorem fields_csDraw (lc lr : Field) (b : Tri) : (Instr.csDraw lc lr b).fields = ⟨0x8, lc, lr, b.code, 0⟩ := by
  cases b <;> rfl

theorem fields_z (i : Instr) : i.fields.z = 0 := by cases i <;> rfl

theorem encode_eq_word (i : Instr) : encode i = i.fields.word := by
  cases i with
  | set c r v => rw [fields_set]; rfl
  | csDraw lc lr b => rw [fields_csDraw]; rfl
  | _ => rfl

/-- Commands and responses share one layout (R42, R47). -/
theorem packCommand_eq_packResponse (op : BitVec 4) (a b : Field) (cf : BitVec 2) :
    packCommand op a b cf = Machine.packResponse op a b cf := rfl

theorem ofWord_word {f : CmdFields} (hz : f.z = 0) : CmdFields.ofWord f.word = f := by
  rw [CmdFields.word, packCommand_eq_packResponse, CmdFields.ofWord, Machine.status_packResponse, Machine.ra_packResponse,
    Machine.rb_packResponse, Machine.rc_packResponse, Machine.low_packResponse, ← hz]

theorem ofWord_encode (i : Instr) : CmdFields.ofWord (encode i) = i.fields := by
  rw [encode_eq_word, ofWord_word (fields_z i)]

/-- The five fields hold the whole word (R42). -/
theorem ofWord_injective : Function.Injective CmdFields.ofWord := by
  intro w w' h
  simp only [CmdFields.ofWord, CmdFields.mk.injEq, ← BitVec.toNat_inj, BitVec.extractLsb'_toNat,
    Nat.shiftRight_eq_div_pow] at h ⊢
  omega

/-! ## The decoder on fields -/

/-- The clauses of R53: (a), (b), (c) by operation, (d). -/
def CmdFields.Illegal (f : CmdFields) : Prop :=
  f.op ∈ [0x0#4, 0xD#4, 0xE#4, 0xF#4] ∨
  f.z ≠ 0 ∨
  (f.op ∈ [0x2#4, 0x3#4, 0x7#4, 0x9#4, 0xA#4, 0xC#4] ∧ (f.a ≠ 0 ∨ f.b ≠ 0 ∨ f.cf ≠ 0)) ∨
  (f.op ∈ [0x1#4, 0x4#4, 0x6#4] ∧ f.cf ≠ 0) ∨
  (f.op = 0x5#4 ∧ f.cf.getLsbD 1 = true) ∨
  (f.op = 0xB#4 ∧ (f.b ≠ 0 ∨ f.cf ≠ 0)) ∨
  (f.op = 0x8#4 ∧ f.cf = 0b10#2)

/-- What the decoder's answer says about the fields of the word. -/
def CmdFields.Admits (f : CmdFields) : Except IllegalReason Instr → Prop
  | .ok i => f = i.fields
  | .error _ => f.Illegal

theorem admits_ite {f : CmdFields} {i : Instr} {why : IllegalReason} {p : Prop} [Decidable p] (herror : p → f.Illegal)
    (hok : ¬p → f = i.fields) : f.Admits (if p then .error why else .ok i) := by
  split_ifs with h
  · exact herror h
  · exact hok h

theorem reserved_of_unassigned : ∀ op : BitVec 4, ¬(1 ≤ op.toNat ∧ op.toNat ≤ 12) →
    op ∈ [0x0#4, 0xD#4, 0xE#4, 0xF#4] := by decide

theorem eq_ofNat_of_toNat {op : BitVec 4} {n : Nat} (h : op.toNat = n) : op = BitVec.ofNat 4 n := by
  rw [← h, BitVec.ofNat_toNat, BitVec.setWidth_eq]

/-- The two bits of `Cf` of SET once the reserved one is 0 (R45). -/
theorem cf_eq_cellValue : ∀ cf : BitVec 2, ¬cf.getLsbD 1 = true → cf = 0#1 ++ BitVec.ofBool (cf.getLsbD 0) := by decide

/-- The arms of the decoder: by operation, each looks for the fields that the command leaves unused. -/
theorem admits_decode (w : Word) : (CmdFields.ofWord w).Admits (decode w) := by
  simp only [decode]
  generalize CmdFields.ofWord w = f
  obtain ⟨op, a, b, cf, z⟩ := f
  by_cases hz : z = 0
  case neg =>
    rw [if_pos hz]
    exact .inr (.inl hz)
  subst hz
  rw [if_neg (not_not.mpr rfl)]
  dsimp only
  split
  case h_13 =>
    refine .inl (reserved_of_unassigned op ?_)
    simp only [imp_false] at *
    omega
  all_goals
    rename_i hop
    obtain rfl := eq_ofNat_of_toNat hop
  case h_5 =>
    refine admits_ite (fun h => by simpa [CmdFields.Illegal] using h) fun h => ?_
    rw [fields_set, ← cf_eq_cellValue cf h]
    rfl
  case h_8 =>
    split
    next bit hb => exact (Tri.code_of_ofCode? cf bit hb ▸ fields_csDraw a b bit).symm
    next hb => simp [CmdFields.Admits, CmdFields.Illegal, Tri.reserved_of_ofCode? hb]
  all_goals
    exact admits_ite (fun h => by simpa [CmdFields.Illegal] using h) fun h => by simpa [Instr.fields] using h

theorem not_illegal_fields (i : Instr) : ¬i.fields.Illegal := by
  cases i with
  | set c r v => cases v <;> simp [fields_set, CmdFields.Illegal]
  | csDraw lc lr b => cases b <;> simp [fields_csDraw, CmdFields.Illegal, Tri.code]
  | _ => simp [Instr.fields, CmdFields.Illegal]

theorem ofWord_of_decode_eq_ok {w : Word} {i : Instr} (h : decode w = .ok i) : CmdFields.ofWord w = i.fields := by
  have hadmits := admits_decode w
  rwa [h] at hadmits

theorem decode_eq_ok_of_ofWord {w : Word} {i : Instr} (h : CmdFields.ofWord w = i.fields) : decode w = .ok i := by
  rw [decode, h]
  cases i with
  | set c r v => cases v <;> simp [Instr.fields]
  | csDraw lc lr b => simp [fields_csDraw, Tri.ofCode?_code]
  | _ => simp [Instr.fields]

theorem illegal_of_decode_eq_error {w : Word} {why : IllegalReason} (h : decode w = .error why) :
    (CmdFields.ofWord w).Illegal := by
  have hadmits := admits_decode w
  rwa [h] at hadmits

theorem exists_decode_eq_ok_iff {w : Word} : (∃ i, decode w = .ok i) ↔ ¬(CmdFields.ofWord w).Illegal := by
  cases h : decode w with
  | ok i => simp [ofWord_of_decode_eq_ok h, not_illegal_fields]
  | error why => simp [illegal_of_decode_eq_error h]

theorem exists_decode_eq_error_iff {w : Word} : (∃ why, decode w = .error why) ↔ (CmdFields.ofWord w).Illegal := by
  cases h : decode w with
  | ok i => simp [ofWord_of_decode_eq_ok h, not_illegal_fields]
  | error why => simp [illegal_of_decode_eq_error h]

/-- Settles O1: the fields of the word are those of the command, and the decoder reads only the fields. -/
theorem decodeInvertsEncode : Obligations.DecodeInvertsEncode := fun i _ => decode_eq_ok_of_ofWord (ofWord_encode i)

/-- Settles O2: both words hold the fields of the command. -/
theorem encodeInvertsDecode : Obligations.EncodeInvertsDecode := fun _ i h =>
  ofWord_injective ((ofWord_encode i).trans (ofWord_of_decode_eq_ok h).symm)

/-- Settles O5: the decoder computes on each word. -/
theorem specWordsDecode : Obligations.SpecWordsDecode :=
  ⟨rfl, rfl, rfl, rfl, rfl, rfl, rfl, rfl, rfl, rfl, rfl, rfl, rfl, rfl, rfl⟩

end Sys2Proof
end

section
/-! The opcode map (R45): a row selects a word by the fields, and the rows agree with the decoder. -/

namespace Sys2Proof

/-- The fields under a mask. -/
def CmdFields.masked (f mask : CmdFields) : CmdFields :=
  ⟨f.op &&& mask.op, f.a &&& mask.a, f.b &&& mask.b, f.cf &&& mask.cf, f.z &&& mask.z⟩

theorem ofWord_and (w mask : Word) : CmdFields.ofWord (w &&& mask) = (CmdFields.ofWord w).masked (CmdFields.ofWord mask) := by
  simp only [CmdFields.ofWord, CmdFields.masked, BitVec.extractLsb'_and]

theorem selects_iff {row : OpcodeRow} {w : Word} :
    row.selects w = true ↔ (CmdFields.ofWord w).masked (CmdFields.ofWord row.mask) = CmdFields.ofWord row.pattern := by
  rw [OpcodeRow.selects, decide_eq_true_eq, ← ofWord_and, ofWord_injective.eq_iff]

/-- Every row fixes the whole operation code. -/
theorem op_of_selects {w : Word} {row : OpcodeRow} (hrow : row ∈ opcodeRows) (h : row.selects w = true) :
    (CmdFields.ofWord w).op = (CmdFields.ofWord row.pattern).op := by
  have hmask : ∀ row ∈ opcodeRows, (CmdFields.ofWord row.mask).op = BitVec.allOnes 4 := by decide
  have hop := congrArg CmdFields.op (selects_iff.mp h)
  simpa only [CmdFields.masked, hmask row hrow, BitVec.and_allOnes] using hop

/-- No two rows have the same operation code (R44). -/
theorem row_eq_of_op : ∀ row ∈ opcodeRows, ∀ row' ∈ opcodeRows,
    (CmdFields.ofWord row.pattern).op = (CmdFields.ofWord row'.pattern).op → row = row' := by decide

theorem exists_row_of_decode {w : Word} {i : Instr} (h : decode w = .ok i) :
    ∃ row ∈ opcodeRows, row.mnemonic = i.mnemonic ∧ row.selects w = true := by
  simp only [selects_iff, ofWord_of_decode_eq_ok h]
  cases i with
  | set c r v => cases v <;> simp [opcodeRows, Instr.mnemonic, Instr.fields, CmdFields.ofWord, CmdFields.masked]
  | csDraw lc lr b => simp [opcodeRows, Instr.mnemonic, fields_csDraw, CmdFields.ofWord, CmdFields.masked]
  | _ => simp [opcodeRows, Instr.mnemonic, Instr.fields, CmdFields.ofWord, CmdFields.masked]

theorem and_fullField (x : Field) : x &&& 255#8 = x := BitVec.and_allOnes

theorem and_fullOp (x : BitVec 4) : x &&& 15#4 = x := BitVec.and_allOnes

theorem and_fullCf (x : BitVec 2) : x &&& 3#2 = x := BitVec.and_allOnes

theorem and_fullZ (x : BitVec 10) : x &&& 1023#10 = x := BitVec.and_allOnes

theorem and_reservedCf : ∀ x : BitVec 2, x &&& 2#2 = 0#2 ↔ x[1] = false := by decide

/-- The mask of each row covers the fields that R45 marks 0, so of R53 only clause (d) is left. -/
theorem not_illegal_of_selects {w : Word} {row : OpcodeRow} (hrow : row ∈ opcodeRows) (h : row.selects w = true)
    (htri : ¬((CmdFields.ofWord w).op = 0x8#4 ∧ (CmdFields.ofWord w).cf = 0b10#2)) : ¬(CmdFields.ofWord w).Illegal := by
  rw [selects_iff] at h
  generalize CmdFields.ofWord w = f at h htri ⊢
  simp only [opcodeRows, List.cons_append, List.nil_append, List.mem_cons, List.not_mem_nil, or_false] at hrow
  rcases hrow with rfl | rfl | rfl | rfl | rfl | rfl | rfl | rfl | rfl | rfl | rfl | rfl <;>
  simp_all [CmdFields.Illegal, CmdFields.ofWord, CmdFields.masked, and_fullField, and_fullOp, and_fullCf, and_fullZ,
    and_reservedCf]

/-- Settles O3: rows differ in the operation code, a command's fields match its row, and a selected word is not illegal. -/
theorem legalWordsSelectTheirRow : Obligations.LegalWordsSelectTheirRow := by
  refine ⟨fun w row hrow row' hrow' h h' => ?_, fun w i => exists_row_of_decode, fun w => ⟨fun hlegal => ⟨?_, ?_⟩, ?_⟩⟩
  · exact row_eq_of_op row hrow row' hrow' ((op_of_selects hrow h).symm.trans (op_of_selects hrow' h'))
  · obtain ⟨i, hi⟩ := hlegal
    obtain ⟨row, hrow, -, hselects⟩ := exists_row_of_decode hi
    exact ⟨row, hrow, hselects⟩
  · exact fun htri => exists_decode_eq_ok_iff.mp hlegal (by rw [CmdFields.Illegal]; tauto)
  · rintro ⟨⟨row, hrow, hselects⟩, htri⟩
    exact exists_decode_eq_ok_iff.mpr (not_illegal_of_selects hrow hselects htri)

end Sys2Proof
end

section
/-! The illegal words (R53) and the fault they take (R121); the step on a word that decodes (R59). -/

namespace Sys2Proof.Machine

/-- The upper bit of `Cf` is bit 11 of the word (R42). -/
theorem extractLsb'_cfUpper_ne_zero_iff (w : Word) : w.extractLsb' 11 1 ≠ 0 ↔ (CmdFields.ofWord w).cf.getLsbD 1 = true := by
  have hbit : (CmdFields.ofWord w).cf.getLsbD 1 = w.getLsbD 11 := BitVec.getLsbD_extractLsb' 10 2 w 1
  have hone : ∀ x : BitVec 1, x ≠ 0 ↔ (x == 1#1) = true := by decide
  rw [hbit, BitVec.getLsbD_eq_extractLsb', hone]

theorem illegalCommand_clear {s : State} (hf : s.block.fault = 0) :
    illegalCommand s = .next (answered s (s.block.withFault 1) (rspWord 2 1 0 0)) :=
  (unlessFaulted_clear hf).trans (raise_eq s .illegalCmd)

/-- Settles O4: the decoder's errors are the clauses on the fields, and the step takes the fault. -/
theorem illegalWordsFault : Obligations.IllegalWordsFault := by
  constructor
  · intro w
    rw [exists_decode_eq_error_iff, extractLsb'_cfUpper_ne_zero_iff]
    rfl
  · intro s w value rest why hp hd hf
    exact ⟨_, (step_illegal hp hd).trans (illegalCommand_clear (s := accept value rest s) hf), rfl, rfl⟩

/-- Settles O6, by the equation of the command move. -/
theorem stepExecutesTheDecodedCommand : Obligations.StepExecutesTheDecodedCommand :=
  fun _ _ _ _ _ hp hd => step_command hp hd

end Sys2Proof.Machine
end

section
/-! How a command can end, the model's stop included; what every response looks like (R47, R48, R50), and that the invariants
rule the stop out (R59, R136). -/

namespace Sys2Proof.Machine

/-- The endings of a command, by the check or the rule that gives them. `Answer` says what block a command leaves; here stand
the two things it leaves out, which commands answer ALLOC_ERR and when the model stops. -/
inductive Ending (i : Instr) (s : State) : Host.Outcome State Fault Refusal → Prop where
  /-- A block faulted earlier (R127). -/
  | faulted (hf : s.block.fault ≠ 0) : Ending i s (answerFaulted s)
  /-- A fault is recorded (R126). -/
  | raised (c : Cause) (hf : s.block.fault = 0) : Ending i s (raise s c)
  /-- ALLOC_ERR, of a command that makes an image (R128). -/
  | allocErr (hf : s.block.fault = 0) (hi : i.needsImage = false) : Ending i s (allocErr s)
  /-- OK, no fault recorded (R48). -/
  | ok (b : Block) (ra rb : Field) (rc : BitVec 2) (hf : s.block.fault = 0) (hb : b.fault = s.block.fault) :
      Ending i s (respond s b (okResponse ra rb rc))
  /-- The model's stop (log 2, log 9). -/
  | stopped (hv : s.block.valid = true) (hr : ¬s.block.Readable) : Ending i s (.fault .unreadableStore)

namespace Ending

variable {i : Instr} {s : State} {k : Host.Outcome State Fault Refusal}

theorem result (hf : s.block.fault = 0) (ra rb : Field) (rc : BitVec 2) :
    Ending i s (respond s s.block (okResponse ra rb rc)) := ok _ ra rb rc hf rfl

theorem unlessFaulted (hk : s.block.fault = 0 → Ending i s k) : Ending i s (unlessFaulted s k) := by
  rw [Machine.unlessFaulted]
  split_ifs with hf
  · exact faulted hf
  · exact hk (not_not.mp hf)

theorem withImage (hk : s.block.fault = 0 → s.block.valid = true → Ending i s k) : Ending i s (withImage s k) := by
  refine unlessFaulted fun hf => ?_
  split_ifs with hv
  · exact hk hf hv
  · exact raised _ hf

theorem withCells (hv : s.block.valid = true) (hk : Ending i s k) : Ending i s (withCells s k) := by
  rw [Machine.withCells]
  split_ifs with hr
  · exact hk
  · exact stopped hv hr

theorem atCell (c r : Field) (hk : s.block.fault = 0 → Ending i s k) : Ending i s (atCell s c r k) := by
  refine withImage fun hf hv => ?_
  split_ifs
  · exact withCells hv (hk hf)
  · exact raised _ hf

theorem withBarcode (hk : s.block.fault = 0 → s.block.valid = true → Ending i s k) : Ending i s (withBarcode s k) := by
  refine withImage fun hf hv => ?_
  split_ifs
  · exact hk hf hv
  · exact raised _ hf

/-- Every command ends in one of these ways, in any state. -/
theorem exec (i : Instr) (s : State) : Ending i s (exec i s) := by
  cases i with
  | create w h =>
    refine unlessFaulted fun hf => ?_
    split_ifs
    · exact raised _ hf
    · exact allocErr hf rfl
    · exact ok _ 0 0 0 hf rfl
  | free => exact withImage fun hf _ => ok _ 0 0 0 hf rfl
  | size => exact withImage fun hf _ => result hf _ _ 0
  | get c r => exact atCell c r fun hf => result hf 0 0 _
  | set c r v => exact atCell c r fun hf => ok _ 0 0 0 hf rfl
  | invert c r => exact atCell c r fun hf => ok _ 0 0 0 hf rfl
  | csComp | csRead => exact withBarcode fun hf hv => withCells hv (result hf _ _ _)
  | csDraw lc lr b =>
    refine withBarcode fun hf hv => ?_
    split_ifs
    · exact raised _ hf
    · exact withCells hv (ok _ 0 0 0 hf (Block.drawChecksum_fault ..))
  | csRend =>
    refine withBarcode fun hf hv => withCells hv ?_
    split_ifs
    · exact raised _ hf
    · exact ok _ 0 0 0 hf (Block.drawChecksum_fault ..)
  | render n =>
    refine unlessFaulted fun hf => ?_
    split_ifs
    · exact raised _ hf
    · exact raised _ hf
    · exact allocErr hf rfl
    · exact ok _ 0 0 0 hf (Block.rendered_fault ..)
  | validate =>
    refine withBarcode fun hf hv => withCells hv ?_
    cases s.block.diagnose with
    | valid | corrected | uncorrectable => exact ok _ _ _ _ hf rfl

end Ending

/-- The forms of a response (R47, R48, R50): `b` is the block before the command, `b'` the one it leaves. -/
def ResponseForm (i : Instr) (b b' : Block) (rsp : Word) : Prop :=
  rsp.extractLsb' 0 10 = 0 ∧
    ((rsp.extractLsb' 28 4 = 0 ∧ b.fault = 0 ∧ b'.fault = 0) ∨
     (rsp = 0x10000000#32 ∧ i.needsImage = false ∧ b.fault = 0 ∧ b' = b) ∨
     (b'.fault ≠ 0 ∧ rsp = rspWord 2 b'.fault.toNat 0 0))

section

variable {i : Instr} {b b' : Block}

theorem responseForm_fault (hf : b'.fault ≠ 0) : ResponseForm i b b' (faultResponse b'.fault) :=
  ⟨low_packResponse .., .inr (.inr ⟨hf, faultResponse_eq _⟩)⟩

theorem responseForm_ok (ra rb : Field) (rc : BitVec 2) (hf : b.fault = 0) (hb : b'.fault = b.fault) :
    ResponseForm i b b' (okResponse ra rb rc) :=
  ⟨low_packResponse .., .inl ⟨status_packResponse .., hf, hb.trans hf⟩⟩

theorem responseForm_allocErr (hf : b.fault = 0) (hi : i.needsImage = false) : ResponseForm i b b allocErrResponse :=
  ⟨low_packResponse .., .inr (.inl ⟨by decide, hi, hf, rfl⟩)⟩

end

/-- A command answers one response of these forms, or the model stops for want of a readable image. -/
theorem Ending.answers_or_stops {i : Instr} {s : State} {o : Host.Outcome State Fault Refusal} (h : Ending i s o) :
    (∃ b rsp, o = .next (answered s b rsp) ∧ ResponseForm i s.block b rsp) ∨
    (o = .fault .unreadableStore ∧ s.block.valid = true ∧ ¬s.block.Readable) := by
  cases h with
  | faulted hf => exact .inl ⟨_, _, rfl, responseForm_fault hf⟩
  | raised c hf => exact .inl ⟨_, _, rfl, responseForm_fault (b' := s.block.withFault c.code) (code_ne_zero c)⟩
  | allocErr hf hi => exact .inl ⟨_, _, rfl, responseForm_allocErr hf hi⟩
  | ok b ra rb rc hf hb => exact .inl ⟨_, _, rfl, responseForm_ok ra rb rc hf hb⟩
  | stopped hv hr => exact .inr ⟨rfl, hv, hr⟩

/-- Settles O7, from the ways a command can end. -/
theorem everyResponseHasItsForm : Obligations.EveryResponseHasItsForm := by
  intro i s t h
  obtain ⟨b, rsp, hnext, hform⟩ | ⟨hstop, -⟩ := (Ending.exec i s).answers_or_stops
  · obtain rfl : answered s b rsp = t := by simpa [hnext] using h
    exact ⟨rfl, rfl, rsp, rfl, hform⟩
  · simp [hstop] at h

/-- Where images are readable every command answers. -/
theorem exec_answers {s : State} (hr : s.block.valid = true → s.block.Readable) (i : Instr) : ∃ t, exec i s = .next t := by
  obtain ⟨b, rsp, hnext, -⟩ | ⟨-, hv, hnot⟩ := (Ending.exec i s).answers_or_stops
  · exact ⟨_, hnext⟩
  · exact absurd (hr hv) hnot

theorem illegalCommand_answers (s : State) : ∃ t, illegalCommand s = .next t := by
  by_cases hf : s.block.fault = 0
  · exact ⟨_, (unlessFaulted_clear hf).trans (raise_eq s _)⟩
  · exact ⟨_, unlessFaulted_faulted hf⟩

/-- Settles O55: each move of the host is answered, for under the invariants an image is readable. -/
theorem noStopUnderTheInvariant : Obligations.NoStopUnderTheInvariant := by
  intro s hinv
  match hp : s.pending with
  | [] => exact ⟨_, step_idle hp⟩
  | .reset :: rest => exact ⟨_, step_reset hp⟩
  | .command cmd wdata :: rest =>
    cases hd : decode cmd with
    | ok i =>
      rw [step_command hp hd]
      exact exec_answers (s := accept wdata rest s) (readable_of_inv hinv) i
    | error why =>
      rw [step_illegal hp hd]
      exact illegalCommand_answers _

end Sys2Proof.Machine
end

section
/-! Which command reads `WDATA` (R43). -/

namespace Sys2Proof.Machine

/-- The machine with another operand on `WDATA`. -/
def State.withWdata (value : Value) (s : State) : State := { s with wdata := value }

/-- The outcome with another operand on `WDATA`: a stop is the same stop. -/
def withWdata (value : Value) : Host.Outcome State Fault Refusal → Host.Outcome State Fault Refusal
  | .next t => .next (t.withWdata value)
  | .fault f => .fault f
  | .refused r => .refused r

section

variable (value : Value) (s : State) (k : Host.Outcome State Fault Refusal)

theorem withWdata_unlessFaulted :
    withWdata value (unlessFaulted s k) = unlessFaulted (s.withWdata value) (withWdata value k) := apply_ite ..

theorem withWdata_withImage : withWdata value (withImage s k) = withImage (s.withWdata value) (withWdata value k) := by
  rw [withImage, withWdata_unlessFaulted, apply_ite (withWdata value)]
  rfl

theorem withWdata_withCells : withWdata value (withCells s k) = withCells (s.withWdata value) (withWdata value k) :=
  apply_ite ..

theorem withWdata_atCell (c r : Field) :
    withWdata value (atCell s c r k) = atCell (s.withWdata value) c r (withWdata value k) := by
  rw [atCell, withWdata_withImage, apply_ite (withWdata value), withWdata_withCells]
  rfl

theorem withWdata_withBarcode : withWdata value (withBarcode s k) = withBarcode (s.withWdata value) (withWdata value k) := by
  rw [withBarcode, withWdata_withImage, apply_ite (withWdata value)]
  rfl

/-- The checks and the rules of every command but RENDER look at the block only. -/
theorem exec_withWdata {i : Instr} (hi : ∀ n, i ≠ .render n) : exec i (s.withWdata value) = withWdata value (exec i s) := by
  cases i with
  | render n => exact absurd rfl (hi n)
  | create w h =>
    simp only [exec, execCreate, withWdata_unlessFaulted, apply_ite (withWdata value)]
    rfl
  | free | size =>
    simp only [exec, execFree, execSize, withWdata_withImage]
    rfl
  | get c r | set c r v | invert c r =>
    simp only [exec, execGet, execSet, execInvert, withWdata_atCell]
    rfl
  | csDraw lc lr b =>
    simp only [exec, execCsDraw, withWdata_withBarcode, withWdata_withCells, apply_ite (withWdata value)]
    rfl
  | csRend =>
    simp only [exec, execCsRend, withWdata_withBarcode, withWdata_withCells, apply_ite (withWdata value)]
    rfl
  | csComp | csRead | validate =>
    simp only [exec, execCsComp, execCsRead, execValidate, withWdata_withBarcode, withWdata_withCells]
    rfl

end

section Render

variable {s t : State} {n : Field}

theorem raise_not_ok {c : Cause} (h : raise s c = .next t) : t.responses ≠ rspWord 0 0 0 0 :: s.responses := by
  rw [raise_eq] at h
  cases h
  simpa using by cases c <;> decide

theorem allocErr_not_ok (h : allocErr s = .next t) : t.responses ≠ rspWord 0 0 0 0 :: s.responses := by
  rw [allocErr_eq] at h
  cases h
  simpa using by decide

/-- A RENDER that answers OK had a lawful side, and left the rendered block (R91, R93). -/
theorem rendered_of_exec_ok (hf : s.block.fault = 0) (h : exec (.render n) s = .next t)
    (hok : t.responses = rspWord 0 0 0 0 :: s.responses) : sideLegal n = true ∧ t.block = s.block.rendered n s.wdata := by
  simp only [exec, execRender] at h
  rw [unlessFaulted_clear hf] at h
  split_ifs at h with hside hvalue hlarge
  · exact absurd hok (raise_not_ok h)
  · exact absurd hok (raise_not_ok h)
  · exact absurd hok (allocErr_not_ok h)
  · cases h
    exact ⟨by simpa using hside, rfl⟩

/-- The border leaves the data cells as they were filled (R35, R93). -/
theorem cellRead_rendered_data (b : Block) (value : Value) (hn : sideLegal n = true) {c r : Nat} (hc : c < n.toNat)
    (hr : r < n.toNat) : (b.rendered n value).cellRead c r = value.getLsbD (r * n.toNat + c) := by
  have hsize := Block.size_dataImage b value hn
  rw [Block.rendered_eq, Block.cellRead_drawExpected_data (Block.isBarcode_dataImage b value hn) (hsize ▸ hc) (hsize ▸ hr),
    Block.cellRead_dataImage _ _ hn hc hr]

end Render

/-- Settles O58: RENDER's data cells hold the operand, and every other command commutes with a change of it. -/
theorem onlyRenderReadsWdata : Obligations.OnlyRenderReadsWdata := by
  constructor
  · intro s t n hf h hok i hi
    obtain ⟨hn, hblock⟩ := rendered_of_exec_ok hf h hok
    have hpos := (sideLegal_iff.mp hn).1
    rw [hblock, cellRead_rendered_data _ _ hn (Nat.mod_lt i hpos) (Nat.div_lt_of_lt_mul hi), Nat.div_add_mod']
  · intro i s value hi
    have hexec := exec_withWdata value s hi
    exact ⟨fun t h => by rw [h] at hexec; exact hexec, fun f h => by rw [h] at hexec; exact hexec⟩

/-- Settles O60: the assembler and the printer compute on each line. -/
theorem textLinesAssemble : Obligations.TextLinesAssemble := ⟨rfl, rfl, rfl, rfl, rfl, rfl, rfl, rfl⟩

end Sys2Proof.Machine
end

section
/-! A command that does not answer OK leaves the image and the store alone (R69, R126, R128). -/

namespace Sys2Proof.Machine

theorem status_okResponse (ra rb : Field) (rc : BitVec 2) : (okResponse ra rb rc).extractLsb' 28 4 = 0 :=
  status_packResponse 0 ra rb rc

theorem status_fault (f : BitVec 4) : (rspWord 2 f.toNat 0 0).extractLsb' 28 4 = 2 := by
  rw [← faultResponse_eq]
  exact status_packResponse ..

/-- Of the endings of a command, those that touch more than the fault register answer OK, and ALLOC_ERR touches nothing. -/
theorem Answer.frame_of_not_ok {b b' : Block} {rsp : Word} (h : Answer b b' rsp) (hstatus : rsp.extractLsb' 28 4 ≠ 0) :
    b' = b.withFault b'.fault ∧ (rsp.extractLsb' 28 4 = 1 → b' = b) := by
  cases h with
  | result | freed | wrote | began => exact absurd (status_okResponse ..) hstatus
  | allocErr | faulted => exact ⟨rfl, fun _ => rfl⟩
  | raised c =>
    refine ⟨rfl, fun halloc => ?_⟩
    rw [status_fault] at halloc
    exact absurd halloc (by decide)

/-- Settles O17, from the ways a command can end. -/
theorem nonOkChangesNothing : Obligations.NonOkChangesNothing := by
  intro i s t rsp h hresponses hstatus
  obtain ⟨b, rsp', rfl, hanswer⟩ := exec_effect h
  obtain rfl : rsp' = rsp := List.head_eq_of_cons_eq hresponses
  exact hanswer.frame_of_not_ok hstatus

end Sys2Proof.Machine
end

section
/-! CREATE, FREE and SIZE: when CREATE faults and what it leaves when it answers OK (R61), what FREE and SIZE answer
(R62, R63). -/

namespace Sys2Proof.Machine

variable {s t : State} {w h : Field}

theorem exec_create_zero (hf : s.block.fault = 0) (hzero : w = 0 ∨ h = 0) :
    exec (.create w h) s = .next (answered s (s.block.withFault 4) (rspWord 2 4 0 0)) := by
  simp only [exec, execCreate]
  rw [unlessFaulted_clear hf, if_pos hzero]
  exact raise_eq s .constrDim

/-- A CREATE that answers OK fits the store, and left the new image (R61). -/
theorem created_of_exec_ok (hf : s.block.fault = 0) (hexec : exec (.create w h) s = .next t)
    (hok : t.responses = rspWord 0 0 0 0 :: s.responses) :
    (w.toNat * h.toNat + 7) / 8 ≤ s.block.storeBytes ∧ t = answered s (s.block.newImage w h) (okResponse 0 0 0) := by
  simp only [exec, execCreate] at hexec
  rw [unlessFaulted_clear hf] at hexec
  split_ifs at hexec with hzero hlarge
  · exact absurd hok (raise_not_ok hexec)
  · exact absurd hok (allocErr_not_ok hexec)
  · cases hexec
    exact ⟨not_tooLarge.mp (Bool.eq_false_of_not_eq_true hlarge), rfl⟩

theorem exec_free_ok (hf : s.block.fault = 0) (hv : s.block.valid = true) :
    exec .free s = .next (answered s { s.block with valid := false, w := 0, h := 0 } (okResponse 0 0 0)) :=
  withImage_ok hf hv

theorem exec_size_ok (hf : s.block.fault = 0) (hv : s.block.valid = true) :
    exec .size s = .next (answered s s.block (okResponse s.block.w s.block.h 0)) :=
  withImage_ok hf hv

/-- Settles O14: the dimensions are checked before the capacity. -/
theorem zeroDimensionFaults : Obligations.ZeroDimensionFaults := fun _ _ _ => exec_create_zero

/-- Settles O18: the bytes of the new image are cleared, the others are not written. -/
theorem createBeginsABlankImage : Obligations.CreateBeginsABlankImage := by
  intro s w h hf hw hh hfit
  refine ⟨s.block.newImage w h, ?_, rfl, rfl, rfl, hf, rfl, ?_, fun a ha => ?_, fun a ha => ?_⟩
  · rw [exec_create_ok hf hw hh hfit, okResponse_zero]
  · exact fun c r => s.block.cellRead_newImage w h
  · rw [newImage_store, Memory.read?_clear, bytesFor, if_pos ha]
  · rw [newImage_store, Memory.read?_clear, bytesFor, if_neg (Nat.not_lt.mpr ha)]

/-- Settles O19, from the equation of FREE. -/
theorem freeEndsTheImage : Obligations.FreeEndsTheImage := by
  intro s hf hv
  rw [exec_free_ok hf hv, okResponse_zero]

/-- Settles O20, from the equation of SIZE. -/
theorem sizeAnswersTheDimensions : Obligations.SizeAnswersTheDimensions := by
  intro s hf hv
  rw [exec_size_ok hf hv, okResponse_eq]
  rfl

end Sys2Proof.Machine
end

section
/-! What GET and SIZE reply after a cell was written (R67, R68). -/

namespace Sys2Proof.Machine

variable {s : State} {c r c' r' : Field}

theorem reply_size (hf : s.block.fault = 0) (hv : s.block.valid = true) :
    reply .size s = some (okResponse s.block.w s.block.h 0) := by
  rw [reply, exec_size_ok hf hv]
  rfl

theorem hasImage_cellWrite (hi : HasImage s) (c r : Nat) (v : Bool) (rsp : Word) :
    HasImage (answered s (s.block.cellWrite c r v) rsp) :=
  hasImage_writes hi [(c, r, v)] rsp

theorem reply_get_cellWrite_same (hi : HasImage s) (hc : c.toNat < s.block.w.toNat) (hr : r.toNat < s.block.h.toNat)
    (v : Bool) (rsp : Word) :
    reply (.get c r) (answered s (s.block.cellWrite c.toNat r.toNat v) rsp) = some (rspWord 0 0 0 v.toNat) := by
  rw [reply_get (hasImage_cellWrite hi _ _ v rsp) hc hr, answered_block, Block.cellRead_cellWrite_same _ _ _ v hc]

theorem reply_get_cellWrite_other (hi : HasImage s) (hc : c.toNat < s.block.w.toNat) (hc' : c'.toNat < s.block.w.toNat)
    (hr' : r'.toNat < s.block.h.toNat) (hne : (c', r') ≠ (c, r)) (v : Bool) (rsp : Word) :
    reply (.get c' r') (answered s (s.block.cellWrite c.toNat r.toNat v) rsp) = reply (.get c' r') s := by
  have hne' : (c'.toNat, r'.toNat) ≠ (c.toNat, r.toNat) := by simpa [BitVec.toNat_inj] using hne
  rw [reply_get (hasImage_cellWrite hi _ _ v rsp) hc' hr', reply_get hi hc' hr', answered_block,
    Block.cellRead_cellWrite_other _ v hc hc' hne']

theorem reply_size_cellWrite (hi : HasImage s) (c r : Nat) (v : Bool) (rsp : Word) :
    reply .size (answered s (s.block.cellWrite c r v) rsp) = reply .size s := by
  obtain ⟨hf, hv, -⟩ := hi
  exact (reply_size (s := answered s (s.block.cellWrite c r v) rsp) hf hv).trans (reply_size hf hv).symm

/-- The response to GET tells the value of the cell. -/
theorem cellRead_of_reply_get {v : Bool} (hi : HasImage s) (hc : c.toNat < s.block.w.toNat)
    (hr : r.toNat < s.block.h.toNat) (hreply : reply (.get c r) s = some (rspWord 0 0 0 v.toNat)) :
    s.block.cellRead c.toNat r.toNat = v := by
  have hinj : ∀ x y : Bool, rspWord 0 0 0 x.toNat = rspWord 0 0 0 y.toNat → x = y := by decide
  rw [reply_get hi hc hr] at hreply
  exact hinj _ _ (Option.some.inj hreply)

/-- Settles O24: SET and INVERT write the cell that GET reads, and a new image is blank. -/
theorem readAfterWrite : Obligations.ReadAfterWrite := by
  refine ⟨fun s c r v hi hc hr => ?_, fun s c r v hi hc hr hreply => ?_, fun s t w h c r hf hexec hok hc hr => ?_⟩
  · exact ⟨_, exec_set_ok hi hc hr, reply_get_cellWrite_same hi hc hr v _⟩
  · refine ⟨_, exec_invert_ok hi hc hr, ?_⟩
    rw [Block.cellInvert, cellRead_of_reply_get hi hc hr hreply]
    exact reply_get_cellWrite_same hi hc hr _ _
  · obtain ⟨hfit, rfl⟩ := created_of_exec_ok hf hexec hok
    rw [reply_get (hasImage_newImage hf hfit _) hc hr, answered_block, Block.cellRead_newImage _ w h hc hr]
    rfl

/-- Settles O25: SET and INVERT each write one cell, GET and SIZE answer the block as it is. -/
theorem otherCellsKeepTheirValue : Obligations.OtherCellsKeepTheirValue := by
  refine ⟨fun s c r c' r' v hi hc hr hc' hr' hne => ⟨?set, ?invert⟩, fun s c r hi hc hr => ⟨?get, ?size⟩⟩
  case set =>
    exact ⟨_, exec_set_ok hi hc hr, reply_get_cellWrite_other hi hc hc' hr' hne v _, reply_size_cellWrite hi _ _ v _⟩
  case invert =>
    exact ⟨_, exec_invert_ok hi hc hr, reply_get_cellWrite_other hi hc hc' hr' hne _ _, reply_size_cellWrite hi _ _ _ _⟩
  case get => exact ⟨_, exec_get_ok hi hc hr, rfl⟩
  case size =>
    obtain ⟨hf, hv, -⟩ := hi
    exact ⟨_, exec_size_ok hf hv, rfl⟩

end Sys2Proof.Machine
end

section
/-! CombinedParity (R78) and the shape check of the codec and the validator (R81). -/

namespace Sys2Proof.Machine

/-- The number of set bits, as the sum over the eight bits (R12). -/
theorem popcount8_eq_finsetSum (v : Field) : popcount8 v = ∑ i ∈ Finset.range 8, (v.getLsbD i).toNat := popcount8_eq_sum v

theorem combinedParity_comm (a b : Field) : combinedParity a b = combinedParity b a := by
  simp only [combinedParity_eq]
  cases labelParity a <;> cases labelParity b <;> rfl

/-- Settles O31: CombinedParity looks at the two counts mod 2 only. -/
theorem combinedParityTruthTable : Obligations.CombinedParityTruthTable := by
  intro a b
  simp only [← popcount8_eq_finsetSum]
  refine ⟨combinedParity_comm a b, ?_, ?_, ?_, ?_⟩ <;> intro ha hb <;> simp [combinedParity, ha, hb]

/-- The commands that need a barcode image look at its shape before anything of their own (R59, R81). -/
theorem exec_eq_withBarcode {i : Instr} (hi : i.needsBarcode = true) (s : State) : ∃ k, exec i s = withBarcode s k := by
  cases i with
  | csComp | csDraw | csRead | csRend | validate => exact ⟨_, rfl⟩
  | create | free | size | get | set | invert | render => exact absurd hi (by simp [Instr.needsBarcode])

/-- Settles O12: an image that is no barcode image stops all five commands at their shape check. -/
theorem wrongShapeFaults : Obligations.WrongShapeFaults := by
  intro i s hi hf hv hshape
  obtain ⟨k, hk⟩ := exec_eq_withBarcode hi s
  rw [hk, withBarcode_shape hf hv fun hb => hshape hb.2]
  rfl

end Sys2Proof.Machine
end

section
/-! What the computed and the read labels hold (R73 to R77, R80), and the responses of CSCOMP and CSREAD (R82, R84). -/

namespace Sys2Proof.Machine

/-- The response of a checksum whose bit is the cell value `v` (R49). -/
theorem checksumResponse_of_bit {cs : Checksum} {v : Bool} (h : cs.bit = tri v) :
    checksumResponse cs = rspWord 0 cs.lc.toNat cs.lr.toNat v.toNat := by
  rw [checksumResponse, okResponse_eq, h]
  cases v <;> rfl

theorem tri_ne_mismatched (v : Bool) : tri v ≠ .mismatched := by cases v <;> decide

theorem toNat_getLsbD_labelOf (n : Nat) (f : Nat → Bool) {i : Nat} (hi : i < 8) :
    ((labelOf n f).getLsbD i).toNat = if i < n then (f i).toNat else 0 := by
  rw [getLsbD_labelOf n f hi]
  by_cases hn : i < n <;> simp [hn]

theorem getLsbD_labelOf_eq_false {n : Nat} (f : Nat → Bool) {i : Nat} (hi : n ≤ i) : (labelOf n f).getLsbD i = false := by
  by_cases h8 : i < 8
  · simp [getLsbD_labelOf n f h8, Nat.not_lt.mpr hi]
  · exact BitVec.getLsbD_of_ge _ _ (Nat.not_lt.mp h8)

theorem popcount8_labelOf {n : Nat} (hn : n ≤ 8) (f : Nat → Bool) :
    popcount8 (labelOf n f) = ∑ i ∈ Finset.range n, (f i).toNat := by
  have hbits : ∀ i ∈ Finset.range 8, ((labelOf n f).getLsbD i).toNat = if i < n then (f i).toNat else 0 :=
    fun i hi => toNat_getLsbD_labelOf n f (Finset.mem_range.mp hi)
  rw [popcount8_eq_finsetSum, Finset.sum_congr rfl hbits, ← Finset.sum_filter]
  exact Finset.sum_congr (by ext i; simp; omega) fun _ _ => rfl

namespace Block

variable {b : Block}

theorem lc_computeChecksum (b : Block) : b.computeChecksum.lc = labelOf b.size b.rowPar := rfl

theorem lr_computeChecksum (b : Block) : b.computeChecksum.lr = labelOf b.size b.colPar := rfl

theorem lc_readChecksum (b : Block) : b.readChecksum.lc = labelOf b.size fun i => b.cellRead b.size i := rfl

theorem lr_readChecksum (b : Block) : b.readChecksum.lr = labelOf b.size fun i => b.cellRead i b.size := rfl

theorem labelParity_computeChecksum_lc (hsize : b.size ≤ 8) : labelParity b.computeChecksum.lc = b.dataPar :=
  labelParity_labelOf hsize _

theorem labelParity_computeChecksum_lr (hsize : b.size ≤ 8) : labelParity b.computeChecksum.lr = b.dataPar :=
  (labelParity_labelOf hsize _).trans b.dataPar_eq_columns.symm

theorem computeChecksum_bit_ne_mismatched (hsize : b.size ≤ 8) : b.computeChecksum.bit ≠ .mismatched := by
  rw [computeChecksum_bit hsize]
  exact tri_ne_mismatched _

end Block

open Block

/-- Settles O27: the labels are the parity trees, and the bit is the parity of the data region. -/
theorem cscompAnswersTheParities : Obligations.CscompAnswersTheParities := by
  intro s hb
  refine ⟨s.block.computeChecksum.lc, s.block.computeChecksum.lr, ?_, fun i hi => ?_, fun i hi => ?_⟩
  · rw [exec_csComp_ok hb, checksumResponse_of_bit (computeChecksum_bit (size_le hb.2.1)), toNat_dataPar]
  · rw [lc_computeChecksum, toNat_getLsbD_labelOf _ _ hi, toNat_rowPar]
  · rw [lr_computeChecksum, toNat_getLsbD_labelOf _ _ hi, toNat_colPar]

/-- Settles O29: the read labels are the border cells. -/
theorem csreadAnswersTheBorder : Obligations.CsreadAnswersTheBorder := by
  intro s hb
  refine ⟨s.block.readChecksum.lc, s.block.readChecksum.lr, ?_, fun i hi => ?_, fun i hi => ?_⟩
  · rw [exec_csRead_ok hb, checksumResponse_of_bit rfl]
  · rw [lc_readChecksum, getLsbD_labelOf _ _ hi]
  · rw [lr_readChecksum, getLsbD_labelOf _ _ hi]

/-- Settles O32: the bits of a label count the odd lines, and both labels have the parity of the data region. -/
theorem expectedBitIsTheDataParity : Obligations.ExpectedBitIsTheDataParity := by
  intro b hb
  have hsize := size_le hb
  refine ⟨?_, ?_, ?_, ?_, ?_, computeChecksum_bit_ne_mismatched hsize⟩
  · simp only [lc_computeChecksum, popcount8_labelOf hsize, toNat_rowPar]
  · simp only [lr_computeChecksum, popcount8_labelOf hsize, toNat_colPar]
  · rw [popcount8_mod_two, labelParity_computeChecksum_lc hsize, toNat_dataPar]
  · rw [popcount8_mod_two, labelParity_computeChecksum_lr hsize, toNat_dataPar]
  · rw [computeChecksum_bit hsize, ← toNat_dataPar]
    cases b.dataPar <;> rfl

end Sys2Proof.Machine
end

section
/-! The parity trees of the hardware (R89). -/

namespace Sys2Proof.Machine

/-- A tree of eight inputs gated by `j < n` is the tree of the first `n` inputs. -/
theorem parityOf_gated {n : Nat} (hn : n ≤ 8) (f : Nat → Bool) :
    parityOf ((List.range 8).map fun j => decide (j < n) && f j) = parityOf ((List.range n).map f) := by
  rw [← labelParity_labelOf hn f, labelParity]
  congr 1
  exact List.map_congr_left fun j hj => (getLsbD_labelOf n f (List.mem_range.mp hj)).symm

theorem gatedTree_eq {n : Nat} (hn : n ≤ 8) (i : Nat) (cell : Nat → Bool) :
    Block.gatedTree n i cell = (decide (i < n) && parityOf ((List.range n).map cell)) := by
  by_cases hi : i < n
  · simp [Block.gatedTree, hi, parityOf_gated hn]
  · simp [Block.gatedTree, hi]

/-- Settles O36: each gated tree is the parity of its line, and the reducers are CombinedParity. -/
theorem parityTreesComputeTheChecksum : Obligations.ParityTreesComputeTheChecksum := by
  intro b hb
  simp only [Block.parityTrees, gatedTree_eq (Block.size_le hb)]
  rw [Block.computeChecksum, combinedParity_eq]
  rfl

end Sys2Proof.Machine
end

section
/-! Drawing the border: what it writes and what it leaves (R79, R83, R85), and that a label's unused bits are ignored (R90). -/

namespace Sys2Proof.Machine

namespace Block

variable {b : Block}

/-- The bytes that hold no border cell keep what they held (R79). -/
theorem read?_drawChecksum_other (lc lr : Field) (bit : Bool) {a : Nat}
    (ha : ∀ i ≤ b.size, a ≠ b.byteAddr b.size i ∧ a ≠ b.byteAddr i b.size) :
    Memory.read? (b.drawChecksum lc lr bit).store a = Memory.read? b.store a := by
  rw [drawChecksum_eq_writes]
  refine b.read?_writes_other _ fun x hx => ?_
  obtain ⟨hc, hr, hcolumn | hrow⟩ := drawList_le hx
  · rw [hcolumn]
    exact (ha _ hr).1
  · rw [hrow]
    exact (ha _ hc).2

/-- Drawing looks at the first `size` bits of its labels (R79, R90). -/
theorem drawChecksum_congr {lc lr lc' lr' : Field}
    (h : ∀ i < b.size, lc.getLsbD i = lc'.getLsbD i ∧ lr.getLsbD i = lr'.getLsbD i) (bit : Bool) :
    b.drawChecksum lc lr bit = b.drawChecksum lc' lr' bit := by
  have hturn : ∀ b' : Block, ∀ i ∈ List.range b.size, b'.drawPair b.size lc lr i = b'.drawPair b.size lc' lr' i := by
    intro b' i hi
    obtain ⟨hlc, hlr⟩ := h i (List.mem_range.mp hi)
    rw [drawPair, drawPair, hlc, hlr]
  rw [drawChecksum, drawChecksum, List.foldl_ext _ _ _ hturn]

variable (hb : b.IsBarcode) (lc lr : Field) (bit : Bool)
include hb

theorem cellRead_drawChecksum_data {c r : Nat} (hc : c < b.size) (hr : r < b.size) :
    (b.drawChecksum lc lr bit).cellRead c r = b.cellRead c r := by
  have hw := size_lt hb
  rw [cellRead_drawChecksum b _ _ _ (by omega), if_neg (by omega), if_neg (by omega), if_neg (by omega)]

theorem cellRead_drawChecksum_column {i : Nat} (hi : i < b.size) :
    (b.drawChecksum lc lr bit).cellRead b.size i = lc.getLsbD i := by
  rw [cellRead_drawChecksum b _ _ _ (size_lt hb), if_neg (by omega), if_pos ⟨rfl, hi⟩]

theorem cellRead_drawChecksum_row {i : Nat} (hi : i < b.size) :
    (b.drawChecksum lc lr bit).cellRead i b.size = lr.getLsbD i := by
  have hw := size_lt hb
  rw [cellRead_drawChecksum b _ _ _ (by omega), if_neg (by omega), if_neg (by omega), if_pos ⟨rfl, hi⟩]

theorem cellRead_drawChecksum_corner : (b.drawChecksum lc lr bit).cellRead b.size b.size = bit := by
  rw [cellRead_drawChecksum b _ _ _ (size_lt hb), if_pos ⟨rfl, rfl⟩]

end Block

open Block

theorem exec_csDraw_bit {s : State} (hb : HasBarcode s) (lc lr : Field) (bit : Bool) :
    exec (.csDraw lc lr (tri bit)) s = .next (answered s (s.block.drawChecksum lc lr bit) (rspWord 0 0 0 0)) := by
  rw [exec_csDraw_ok hb lc lr (tri_ne_mismatched bit), code_tri, okResponse_zero]

/-- CSREND never meets `Mismatched` (R86). -/
theorem exec_csRend_drawExpected {s : State} (hb : HasBarcode s) :
    exec .csRend s = .next (answered s s.block.drawExpected (rspWord 0 0 0 0)) := by
  rw [exec_csRend_ok hb (computeChecksum_bit_ne_mismatched (size_le hb.2.1)), okResponse_zero]
  rfl

/-- Settles O28, from the cells and the bytes a drawing leaves. -/
theorem csdrawDrawsTheBorder : Obligations.CsdrawDrawsTheBorder := by
  intro s lc lr bit hb
  have ⟨hf, hbarcode, _⟩ := hb
  refine ⟨s.block.drawChecksum lc lr bit, exec_csDraw_bit hb lc lr bit, ?_, drawChecksum_w .., drawChecksum_h .., ?_,
    drawChecksum_storeBytes .., fun i hi => ⟨?_, ?_⟩, ?_, fun c hc r hr => ?_, fun a ha => ?_⟩
  · rw [drawChecksum_valid, hbarcode.1]
  · rw [drawChecksum_fault, hf]
  · exact cellRead_drawChecksum_column hbarcode lc lr bit hi
  · exact cellRead_drawChecksum_row hbarcode lc lr bit hi
  · exact cellRead_drawChecksum_corner hbarcode lc lr bit
  · exact cellRead_drawChecksum_data hbarcode lc lr bit hc hr
  · exact read?_drawChecksum_other lc lr bit ha

/-- Settles O30: CSREND draws the expected checksum, whose labels are the parities of the lines. -/
theorem csrendDrawsTheParities : Obligations.CsrendDrawsTheParities := by
  intro s hb
  have ⟨hf, hbarcode, _⟩ := hb
  refine ⟨s.block.drawExpected, exec_csRend_drawExpected hb, ?_, drawExpected_w _, drawExpected_h _, ?_,
    drawExpected_storeBytes _, fun i hi => ⟨?_, ?_⟩, ?_, fun c hc r hr => ?_, fun a ha => ?_⟩
  · rw [drawExpected_valid, hbarcode.1]
  · rw [drawExpected_fault, hf]
  · exact cellRead_drawExpected_column hbarcode hi
  · exact cellRead_drawExpected_row hbarcode hi
  · exact cellRead_drawExpected_corner hbarcode
  · exact cellRead_drawExpected_data hbarcode hc hr
  · exact read?_drawChecksum_other _ _ _ ha

/-- Settles O35: a produced label is 0 above `size`, and a drawing does not look there. -/
theorem unusedLabelBits : Obligations.UnusedLabelBits := by
  constructor
  · intro b i _ hi
    simp only [lc_computeChecksum, lr_computeChecksum, lc_readChecksum, lr_readChecksum, getLsbD_labelOf_eq_false _ hi,
      and_self]
  · intro s lc lr lc' lr' bit h
    simp only [exec, execCsDraw, drawChecksum_congr h]

end Sys2Proof.Machine
end

section
/-! Reading the border after it was drawn (R88). -/

namespace Sys2Proof.Machine

/-- A label cut to its first `n` bits is the label masked (R88). -/
theorem labelOf_getLsbD (n : Nat) (v : Field) : labelOf n (fun i => v.getLsbD i) = v &&& BitVec.ofNat 8 (2 ^ n - 1) := by
  apply BitVec.eq_of_getLsbD_eq
  intro i hi
  rw [getLsbD_labelOf n _ hi, BitVec.getLsbD_and, BitVec.getLsbD_ofNat, Nat.testBit_two_pow_sub_one]
  simp [hi, Bool.and_comm]

/-- Cutting a label again changes nothing (R90). -/
theorem labelOf_labelOf {n : Nat} (hn : n ≤ 8) (f : Nat → Bool) :
    labelOf n (fun i => (labelOf n f).getLsbD i) = labelOf n f :=
  labelOf_congr fun i hi => by simp [getLsbD_labelOf n f (hi.trans_le hn), hi]

namespace Block

variable {b : Block} (hb : b.IsBarcode)
include hb

theorem readChecksum_drawChecksum (lc lr : Field) (bit : Bool) :
    (b.drawChecksum lc lr bit).readChecksum =
      ⟨labelOf b.size fun i => lc.getLsbD i, labelOf b.size fun i => lr.getLsbD i, tri bit⟩ := by
  simp only [readChecksum, drawChecksum_size, cellRead_drawChecksum_corner hb,
    labelOf_congr fun i hi => cellRead_drawChecksum_column hb lc lr bit hi,
    labelOf_congr fun i hi => cellRead_drawChecksum_row hb lc lr bit hi]

theorem computeChecksum_drawExpected : b.drawExpected.computeChecksum = b.computeChecksum :=
  computeChecksum_congr (drawExpected_size b) fun c hc r hr => by
    rw [drawExpected_size] at hc hr
    exact cellRead_drawExpected_data hb hc hr

/-- The border drawn from the data is the checksum of the data (R88). -/
theorem readChecksum_drawExpected : b.drawExpected.readChecksum = b.computeChecksum := by
  have hsize := size_le hb
  rw [drawExpected, drawTriple, readChecksum_drawChecksum hb, computeChecksum_bit hsize, code_tri,
    ← computeChecksum_bit hsize]
  simp only [computeChecksum, labelOf_labelOf hsize]

theorem borderAgrees_drawExpected : b.drawExpected.BorderAgrees :=
  (readChecksum_drawExpected hb).trans (computeChecksum_drawExpected hb).symm

end Block

open Block

/-- Settles O34: the border cells are the drawn bits below `size`. -/
theorem readInvertsDraw : Obligations.ReadInvertsDraw := by
  constructor
  · intro b lc lr bit hb
    rw [readChecksum_drawChecksum hb, labelOf_getLsbD, labelOf_getLsbD]
    rfl
  · intro s t hb hexec
    rw [exec_csRend_drawExpected hb] at hexec
    cases hexec
    exact borderAgrees_drawExpected hb.2.1

end Sys2Proof.Machine
end

section
/-! One inverted cell in the expected and the observed checksum (R87). -/

namespace Sys2Proof.Machine

/-- An indicator of an index above the label sets no bit of it. -/
theorem labelOf_indicator_of_le {n k : Nat} (hk : n ≤ k) : labelOf n (fun i => decide (i = k)) = 0#8 :=
  (labelOf_congr fun i hi => decide_eq_false (by omega)).trans (labelOf_false n)

theorem labelParity_one_shiftLeft {k : Nat} (hk : k < 8) : labelParity (1#8 <<< k) = true := by
  have h := popcount8_mod_two (1#8 <<< k)
  rw [popcount8_one_shiftLeft hk] at h
  exact Bool.toNat_eq_one.mp h.symm

theorem tri_not (v : Bool) : tri (!v) = if tri v = .one then .zero else .one := by cases v <;> rfl

/-- One flipped input flips a parity tree. -/
theorem parityOf_map_flip {n k : Nat} (hk : k < n) (f : Nat → Bool) (p : Prop) [Decidable p] :
    parityOf ((List.range n).map fun j => Bool.xor (f j) (decide (j = k ∧ p))) =
      Bool.xor (parityOf ((List.range n).map f)) (decide p) := by
  rw [parityOf_map_xor]
  by_cases hp : p
  · simp only [hp, and_true, parityOf_indicator, hk]
  · simp only [hp, and_false, decide_false, parityOf_false]

namespace Block

variable {b : Block} (hb : b.IsBarcode) {x y : Nat}
include hb

theorem cellRead_cellInvert_of_le (hx : x ≤ b.size) {c : Nat} (hc : c ≤ b.size) (r : Nat) :
    (b.cellInvert x y).cellRead c r = Bool.xor (b.cellRead c r) (decide (c = x ∧ r = y)) := by
  have hw := size_lt hb
  exact cellRead_cellInvert b x y (by omega) (by omega)

/-! ## The expected checksum -/

theorem rowPar_cellInvert (hx : x < b.size) (i : Nat) :
    (b.cellInvert x y).rowPar i = Bool.xor (b.rowPar i) (decide (i = y)) := by
  have hcells : ∀ j ∈ List.range b.size,
      (b.cellInvert x y).cellRead j i = Bool.xor (b.cellRead j i) (decide (j = x ∧ i = y)) := fun j hj =>
    cellRead_cellInvert_of_le hb hx.le (List.mem_range.mp hj).le i
  rw [rowPar, cellInvert_size, List.map_congr_left hcells]
  exact parityOf_map_flip hx _ _

theorem colPar_cellInvert (hx : x < b.size) (hy : y < b.size) {i : Nat} (hi : i < b.size) :
    (b.cellInvert x y).colPar i = Bool.xor (b.colPar i) (decide (i = x)) := by
  have hcells : ∀ j ∈ List.range b.size,
      (b.cellInvert x y).cellRead i j = Bool.xor (b.cellRead i j) (decide (j = y ∧ i = x)) := fun j _ => by
    simp only [cellRead_cellInvert_of_le hb hx.le hi.le, and_comm]
  rw [colPar, cellInvert_size, List.map_congr_left hcells]
  exact parityOf_map_flip hy _ _

theorem computeChecksum_lc_cellInvert (hx : x < b.size) (hy : y < b.size) :
    (b.cellInvert x y).computeChecksum.lc = b.computeChecksum.lc ^^^ (1#8 <<< y) := by
  rw [lc_computeChecksum, lc_computeChecksum, cellInvert_size, ← labelOf_indicator hy, labelOf_xor]
  exact labelOf_congr fun i _ => rowPar_cellInvert hb hx i

theorem computeChecksum_lr_cellInvert (hx : x < b.size) (hy : y < b.size) :
    (b.cellInvert x y).computeChecksum.lr = b.computeChecksum.lr ^^^ (1#8 <<< x) := by
  rw [lr_computeChecksum, lr_computeChecksum, cellInvert_size, ← labelOf_indicator hx, labelOf_xor]
  exact labelOf_congr fun i hi => colPar_cellInvert hb hx hy hi

/-- One flipped bit of the first label flips the parity of the data region. -/
theorem dataPar_cellInvert (hx : x < b.size) (hy : y < b.size) : (b.cellInvert x y).dataPar = !b.dataPar := by
  have hsize := size_le hb
  rw [← labelParity_computeChecksum_lc (b := b.cellInvert x y) hsize, computeChecksum_lc_cellInvert hb hx hy,
    labelParity_xor, labelParity_computeChecksum_lc hsize, labelParity_one_shiftLeft (by omega), Bool.xor_true]

theorem computeChecksum_bit_cellInvert (hx : x < b.size) (hy : y < b.size) :
    (b.cellInvert x y).computeChecksum.bit = if b.computeChecksum.bit = .one then .zero else .one := by
  have hsize := size_le hb
  rw [computeChecksum_bit (b := b.cellInvert x y) hsize, dataPar_cellInvert hb hx hy, computeChecksum_bit hsize, tri_not]

/-- A border cell is in no parity of the data. -/
theorem computeChecksum_cellInvert_border (hx : x ≤ b.size) (hborder : x = b.size ∨ y = b.size) :
    (b.cellInvert x y).computeChecksum = b.computeChecksum := by
  refine computeChecksum_congr (cellInvert_size b x y) fun c hc r hr => ?_
  rw [cellInvert_size] at hc hr
  rw [cellRead_cellInvert_of_le hb hx hc.le, decide_eq_false (by omega), Bool.xor_false]

/-! ## The observed checksum -/

/-- The observed checksum sees the inverted cell where it reads it: in the checksum column, in the checksum row or in the
corner. -/
theorem readChecksum_cellInvert (hx : x ≤ b.size) :
    (b.cellInvert x y).readChecksum =
      ⟨b.readChecksum.lc ^^^ labelOf b.size fun i => decide (b.size = x ∧ i = y),
       b.readChecksum.lr ^^^ labelOf b.size fun i => decide (i = x ∧ b.size = y),
       tri (Bool.xor (b.cellRead b.size b.size) (decide (b.size = x ∧ b.size = y)))⟩ := by
  simp only [readChecksum, cellInvert_size, labelOf_xor, cellRead_cellInvert_of_le hb hx (le_refl b.size),
    labelOf_congr fun i hi => cellRead_cellInvert_of_le (y := y) hb hx (Nat.le_of_lt hi) b.size]

theorem readChecksum_cellInvert_data (hx : x < b.size) (hy : y < b.size) :
    (b.cellInvert x y).readChecksum = b.readChecksum := by
  rw [readChecksum_cellInvert hb hx.le]
  simp [hx.ne', hy.ne', labelOf_false, readChecksum]

theorem readChecksum_cellInvert_column (hy : y < b.size) :
    (b.cellInvert b.size y).readChecksum = { b.readChecksum with lc := b.readChecksum.lc ^^^ (1#8 <<< y) } := by
  rw [readChecksum_cellInvert hb (le_refl _)]
  simp [hy.ne', labelOf_false, labelOf_indicator hy, readChecksum]

theorem readChecksum_cellInvert_row (hx : x < b.size) :
    (b.cellInvert x b.size).readChecksum = { b.readChecksum with lr := b.readChecksum.lr ^^^ (1#8 <<< x) } := by
  rw [readChecksum_cellInvert hb hx.le]
  simp [hx.ne', labelOf_false, labelOf_indicator hx, readChecksum]

theorem readChecksum_cellInvert_corner :
    (b.cellInvert b.size b.size).readChecksum =
      { b.readChecksum with bit := if b.readChecksum.bit = .one then .zero else .one } := by
  rw [readChecksum_cellInvert hb (le_refl _)]
  simp only [true_and, and_true, labelOf_indicator_of_le (le_refl _), BitVec.xor_zero, decide_true, Bool.xor_true, tri_not]
  rfl

end Block

open Block

/-- Settles O33: an inverted data cell is in one row, in one column and in the data region; an inverted border cell is read in
one place. -/
theorem oneInvertedCellInTheChecksums : Obligations.OneInvertedCellInTheChecksums := by
  intro b x y hb
  refine ⟨?data, ?column, ?row, ?corner⟩
  case data =>
    exact fun hx hy => ⟨readChecksum_cellInvert_data hb hx hy, computeChecksum_lc_cellInvert hb hx hy,
      computeChecksum_lr_cellInvert hb hx hy, computeChecksum_bit_cellInvert hb hx hy⟩
  case column =>
    exact fun hy => ⟨computeChecksum_cellInvert_border hb (le_refl _) (.inl rfl), readChecksum_cellInvert_column hb hy⟩
  case row =>
    exact fun hx => ⟨computeChecksum_cellInvert_border hb hx.le (.inr rfl), readChecksum_cellInvert_row hb hx⟩
  case corner =>
    exact ⟨computeChecksum_cellInvert_border hb (le_refl _) (.inl rfl), readChecksum_cellInvert_corner hb⟩

end Sys2Proof.Machine
end

section
/-! RENDER's checks in the order of R93: what it answers to a bad side, a bad value, an image that does not fit, and what a lawful
RENDER can answer (R91, R92, R98, R128). -/

namespace Sys2Proof.Machine

variable {s t : State} {n : Field}

section Arms

variable (hf : s.block.fault = 0)
include hf

theorem exec_render_badSide (hside : ¬(1 ≤ n.toNat ∧ n.toNat ≤ 8)) : exec (.render n) s = raise s .constrSize := by
  have hn : sideLegal n = false := Bool.eq_false_iff.mpr (mt sideLegal_iff.mp hside)
  simp only [exec, execRender]
  rw [unlessFaulted_clear hf, hn]
  rfl

theorem exec_render_badValue (h1 : 1 ≤ n.toNat) (h8 : n.toNat ≤ 8) (hvalue : 2 ^ (n.toNat * n.toNat) ≤ s.wdata.toNat) :
    exec (.render n) s = raise s .constrValue := by
  have hbad : valueFits n s.wdata = false := Bool.eq_false_iff.mpr (mt valueFits_iff.mp hvalue.not_gt)
  simp only [exec, execRender]
  rw [unlessFaulted_clear hf, sideLegal_iff.mpr ⟨h1, h8⟩, hbad]
  rfl

theorem exec_render_tooLarge (h1 : 1 ≤ n.toNat) (h8 : n.toNat ≤ 8) (hvalue : s.wdata.toNat < 2 ^ (n.toNat * n.toNat))
    (hlarge : s.block.storeBytes < ((n.toNat + 1) * (n.toNat + 1) + 7) / 8) : exec (.render n) s = allocErr s := by
  simp only [exec, execRender]
  rw [unlessFaulted_clear hf, sideLegal_iff.mpr ⟨h1, h8⟩, valueFits_iff.mpr hvalue, tooLarge_iff.mpr hlarge]
  rfl

/-- A RENDER that answers OK had an image that fits the store (R93, R128). -/
theorem fits_of_exec_render_ok (h : exec (.render n) s = .next t) (hok : t.responses = rspWord 0 0 0 0 :: s.responses) :
    ((n.toNat + 1) * (n.toNat + 1) + 7) / 8 ≤ s.block.storeBytes := by
  obtain ⟨hn, -⟩ := rendered_of_exec_ok hf h hok
  obtain ⟨h1, h8⟩ := sideLegal_iff.mp hn
  by_contra hlarge
  rcases Nat.lt_or_ge s.wdata.toNat (2 ^ (n.toNat * n.toNat)) with hvalue | hvalue
  · exact allocErr_not_ok (exec_render_tooLarge hf h1 h8 hvalue (Nat.lt_of_not_le hlarge) ▸ h) hok
  · exact raise_not_ok (exec_render_badValue hf h1 h8 hvalue ▸ h) hok

end Arms

theorem reply_of_exec {i : Instr} {b : Block} {rsp : Word} (h : exec i s = .next (answered s b rsp)) :
    reply i s = some rsp := by
  rw [reply, h]
  rfl

/-- The largest image RENDER makes, 9×9 cells, takes 11 bytes (R98). -/
theorem renderBytes_le {m : Nat} (hm : m ≤ 8) : ((m + 1) * (m + 1) + 7) / 8 ≤ 11 := by
  have hcells : (m + 1) * (m + 1) ≤ 9 * 9 := Nat.mul_le_mul (by omega) (by omega)
  omega

/-- Settles O15: a bad side and a bad value raise their cause; with side 8 every value fits, and neither answer that is left
records a fault. -/
theorem renderRefusesBadOperands : Obligations.RenderRefusesBadOperands := by
  intro s n hf
  refine ⟨fun hside => ?_, fun h1 h8 hvalue => ?_, fun h8 t h => ?_⟩
  · rw [exec_render_badSide hf hside, raise_eq]
    rfl
  · rw [exec_render_badValue hf h1 h8.le hvalue, raise_eq]
    rfl
  · have hvalue : s.wdata.toNat < 2 ^ (n.toNat * n.toNat) := by
      rw [h8]
      exact s.wdata.isLt
    rcases Nat.lt_or_ge s.block.storeBytes (((n.toNat + 1) * (n.toNat + 1) + 7) / 8) with hlarge | hfit
    · rw [exec_render_tooLarge hf (by omega) h8.le hvalue hlarge, allocErr_eq] at h
      cases h
      exact hf
    · rw [exec_render_ok hf (by omega) h8.le hvalue hfit] at h
      cases h
      exact (Block.rendered_fault ..).trans hf

/-- Settles O38: the image fits or it does not, and it fits 11 bytes. -/
theorem renderFailsOnlyByAllocation : Obligations.RenderFailsOnlyByAllocation := by
  intro s n hf h1 h8 hvalue
  have hok (hfit : ((n.toNat + 1) * (n.toNat + 1) + 7) / 8 ≤ s.block.storeBytes) :
      reply (.render n) s = some (rspWord 0 0 0 0) := by
    rw [reply_of_exec (exec_render_ok hf h1 h8 hvalue hfit), okResponse_zero]
  refine ⟨?_, fun hstore => hok ((renderBytes_le h8).trans hstore)⟩
  rcases Nat.lt_or_ge s.block.storeBytes (((n.toNat + 1) * (n.toNat + 1) + 7) / 8) with hlarge | hfit
  · exact .inr (reply_of_exec ((exec_render_tooLarge hf h1 h8 hvalue hlarge).trans (allocErr_eq s)))
  · exact .inl (hok hfit)

end Sys2Proof.Machine
end

section
/-! The rendered image: it decodes to the value (R94, R95), it is a readable barcode image, and its border is the checksum of its
data (R96). -/

namespace Sys2Proof.Machine

namespace Block

variable (b : Block) {n : Field} (value : Value) (hn : sideLegal n = true)
include hn

theorem size_rendered : (b.rendered n value).size = n.toNat := by
  rw [rendered_eq, drawExpected_size, size_dataImage b value hn]

theorem isBarcode_rendered : (b.rendered n value).IsBarcode := by
  rw [rendered_eq, drawExpected, drawTriple, drawChecksum_eq_writes]
  exact isBarcode_writes (isBarcode_dataImage b value hn) _

theorem readable_newImage_of_fits (hfit : ((n.toNat + 1) * (n.toNat + 1) + 7) / 8 ≤ b.storeBytes) :
    (b.newImage (n + 1) (n + 1)).Readable :=
  readable_newImage _ _ _ (by rwa [bytesFor, toNat_succ_of_sideLegal hn])

theorem readable_rendered (hfit : ((n.toNat + 1) * (n.toNat + 1) + 7) / 8 ≤ b.storeBytes) :
    (b.rendered n value).Readable := by
  rw [rendered_eq, drawExpected, drawTriple, drawChecksum_eq_writes, dataImage_eq_writes]
  exact readable_writes (readable_writes (readable_newImage_of_fits b hn hfit) _) _

/-- `Decode` reads bit `i` from the cell RENDER put it in; the bits from `size * size` on are 0 on both sides (R35, R94, R95). -/
theorem decodeValue_rendered (hvalue : value.toNat < 2 ^ (n.toNat * n.toNat)) :
    (b.rendered n value).decodeValue = value := by
  have hpos := (sideLegal_iff.mp hn).1
  apply BitVec.eq_of_getLsbD_eq
  intro i hi
  simp only [decodeValue, size_rendered b value hn, BitVec.getLsbD_ofFnLE, hi, dite_true]
  by_cases hcell : i < n.toNat * n.toNat
  · rw [cellRead_rendered_data b value hn (Nat.mod_lt i hpos) (Nat.div_lt_of_lt_mul hcell), Nat.div_add_mod']
    simp [hcell]
  · have hzero : value.getLsbD i = false :=
      Nat.testBit_lt_two_pow (hvalue.trans_le (Nat.pow_le_pow_right (by decide) (Nat.le_of_not_lt hcell)))
    simp [hcell, hzero]

end Block

open Block

/-- VALIDATE of an image that carries its checksum answers Valid and changes nothing (R108, R110). -/
theorem exec_validate_borderAgrees {s : State} (hb : HasBarcode s) (hborder : s.block.BorderAgrees) :
    exec .validate s = .next (answered s s.block (rspWord 0 0 0 0)) := by
  rw [exec_validate_ok hb, diagnose_valid hborder, flip_valid_outcome, verdictResponse_valid]

/-- Settles O39: a RENDER that answers OK leaves the rendered image, and that decodes to the value. -/
theorem renderRoundTrip : Obligations.RenderRoundTrip := by
  intro s t n hf _ _ hvalue h hok
  obtain ⟨hn, hblock⟩ := rendered_of_exec_ok hf h hok
  rw [hblock, decodeValue_rendered _ _ hn hvalue]

/-- Settles O40: the border RENDER draws last is the checksum of the data, so VALIDATE finds no difference. -/
theorem renderedImageIsValid : Obligations.RenderedImageIsValid := by
  intro s t n hf h hok
  obtain ⟨hn, hblock⟩ := rendered_of_exec_ok hf h hok
  have hfit := fits_of_exec_render_ok hf h hok
  have hborder : t.block.BorderAgrees := by
    rw [hblock, rendered_eq]
    exact borderAgrees_drawExpected (isBarcode_dataImage _ _ hn)
  have hb : HasBarcode t := by
    rw [HasBarcode, hblock]
    exact ⟨(rendered_fault ..).trans hf, isBarcode_rendered _ _ hn, readable_rendered _ _ hn hfit⟩
  exact ⟨hborder, exec_validate_borderAgrees hb hborder⟩

end Sys2Proof.Machine
end

section
/-! RENDER as CREATE, SETs and CSREND (R97). The SETs are the writes of RENDER's fill; those of 0 bits may be left out, because
CREATE has made every cell 0 and each cell is set once. -/

namespace Sys2Proof.Machine

namespace Block

/-- In cells that are 0, each written at most once, only the writes of 1 matter (R38, R97). -/
theorem writes_filter_ones {b : Block} (hwf : Memory.wf b.store) (hread : b.Readable) {l : List (Nat × Nat × Bool)}
    (hin : ∀ x ∈ l, x.1 < b.w.toNat ∧ x.2.1 < b.h.toNat) (honce : l.Pairwise fun x y => (y.1, y.2.1) ≠ (x.1, x.2.1))
    (hzero : ∀ x ∈ l, b.cellRead x.1 x.2.1 = false) : b.writes (l.filter fun x => x.2.2) = b.writes l := by
  induction l generalizing b with
  | nil => rfl
  | cons x l ih =>
    obtain ⟨c, r, v⟩ := x
    obtain ⟨hother, honceTail⟩ := List.pairwise_cons.mp honce
    obtain ⟨⟨hc, hr⟩, hinTail⟩ := List.forall_mem_cons.mp hin
    obtain ⟨hcell, hzeroTail⟩ := List.forall_mem_cons.mp hzero
    cases v with
    | false =>
      have hsame : b.cellWrite c r false = b := by
        rw [← hcell]
        exact cellWrite_same_value hwf (hread.2 _ (b.byteAddr_lt_usedBytes hc hr))
      rw [List.filter_cons_of_neg Bool.false_ne_true, writes_cons, hsame]
      exact ih hwf hread hinTail honceTail hzeroTail
    | true =>
      have hkept : ∀ y ∈ l, (b.cellWrite c r true).cellRead y.1 y.2.1 = false := fun y hy =>
        (b.cellRead_cellWrite_other true hc (hinTail y hy).1 (hother y hy)).trans (hzeroTail y hy)
      rw [List.filter_cons_of_pos rfl, writes_cons, writes_cons]
      exact ih (wf_cellWrite hwf c r true) (readable_cellWrite hread c r true) hinTail honceTail hkept

/-- The fill writes each cell of the data region once (R35). -/
theorem fillList_once (n : Nat) (value : Value) :
    (fillList n value).Pairwise fun x y => (y.1, y.2.1) ≠ (x.1, x.2.1) := by
  rw [fillList, List.pairwise_map]
  refine List.nodup_range.imp fun {i j} hne hcell => hne ?_
  have hmod : j % n = i % n := congrArg Prod.fst hcell
  have hdiv : j / n = i / n := congrArg Prod.snd hcell
  rw [← Nat.div_add_mod i n, ← Nat.div_add_mod j n, hmod, hdiv]

/-- The writes of the fill for the bits that are kept. -/
def keptFill (n : Nat) (value : Value) (keep : Nat → Bool) : List (Nat × Nat × Bool) :=
  ((List.range (n * n)).filter keep).map fun i => (i % n, i / n, value.getLsbD i)

theorem keptFill_all (n : Nat) (value : Value) : keptFill n value (fun _ => true) = fillList n value := by
  rw [keptFill, List.filter_true, fillList]

theorem keptFill_ones (n : Nat) (value : Value) :
    keptFill n value (fun i => value.getLsbD i) = (fillList n value).filter fun x => x.2.2 := by
  rw [keptFill, fillList, List.filter_map]
  rfl

theorem keptFill_lt {n : Nat} {value : Value} {keep : Nat → Bool} {x : Nat × Nat × Bool}
    (h : x ∈ keptFill n value keep) : x.1 < n ∧ x.2.1 < n :=
  fillList_lt (value := value) (List.map_subset _ (List.filter_subset_self _) h)

/-- On a new image the fill may leave out the 0 bits. -/
theorem dataImage_eq_writes_ones (b : Block) {n : Field} (value : Value) (hwf : Memory.wf b.store)
    (hn : sideLegal n = true) (hfit : ((n.toNat + 1) * (n.toNat + 1) + 7) / 8 ≤ b.storeBytes) :
    b.dataImage value n = (b.newImage (n + 1) (n + 1)).writes ((fillList n.toNat value).filter fun x => x.2.2) := by
  have hin : ∀ x ∈ fillList n.toNat value, x.1 < (n + 1).toNat ∧ x.2.1 < (n + 1).toNat := fun x hx => by
    obtain ⟨hc, hr⟩ := fillList_lt hx
    have hside := toNat_succ_of_sideLegal hn
    omega
  have hzero : ∀ x ∈ fillList n.toNat value, (b.newImage (n + 1) (n + 1)).cellRead x.1 x.2.1 = false := fun x hx =>
    b.cellRead_newImage _ _ (hin x hx).1 (hin x hx).2
  rw [dataImage_eq_writes, writes_filter_ones (Memory.wf_clear hwf _) (readable_newImage_of_fits b hn hfit) hin
    (fillList_once _ _) hzero]

end Block

open Block

/-- The operands of the SET for bit `i` of the value (R97). -/
def setOperands (n : Nat) (value : Value) (i : Nat) : Field × Field × Bool :=
  (BitVec.ofNat 8 (i % n), BitVec.ofNat 8 (i / n), value.getLsbD i)

theorem renderSequence_eq (n : Field) (value : Value) (keep : Nat → Bool) :
    renderSequence n value keep =
      .create (n + 1) (n + 1) ::
        ((((List.range (n.toNat * n.toNat)).filter keep).map (setOperands n.toNat value)).map fun x =>
          .set x.1 x.2.1 x.2.2) ++ [.csRend] := by
  rw [List.map_map]
  rfl

/-- The SET for bit `i` writes the cell that RENDER's fill writes (R35, R97). -/
theorem cellWriteOf_setOperands {n i : Nat} (value : Value) (hn : n ≤ 8) (hi : i < n * n) :
    cellWriteOf (setOperands n value i) = (i % n, i / n, value.getLsbD i) := by
  have hpos : 0 < n := Nat.pos_of_mul_pos_left (Nat.zero_lt_of_lt hi)
  have hc : i % n < n := Nat.mod_lt i hpos
  have hr : i / n < n := Nat.div_lt_of_lt_mul hi
  simp only [cellWriteOf, setOperands, BitVec.toNat_ofNat]
  rw [Nat.mod_eq_of_lt (a := i % n) (by omega), Nat.mod_eq_of_lt (a := i / n) (by omega)]

/-- The SETs that are kept write what the fill writes for their bits. -/
theorem map_cellWriteOf_setOperands {n : Nat} (value : Value) (hn : n ≤ 8) (keep : Nat → Bool) :
    (((List.range (n * n)).filter keep).map (setOperands n value)).map cellWriteOf = keptFill n value keep := by
  rw [List.map_map]
  exact List.map_congr_left fun i hi =>
    cellWriteOf_setOperands value hn (List.mem_range.mp (List.mem_filter.mp hi).1)

theorem execAll_append {is js : List Instr} {s t : State} (h : execAll is s = .next t) :
    execAll (is ++ js) s = execAll js t := by
  induction is generalizing s with
  | nil => cases h; rfl
  | cons i is ih =>
    simp only [List.cons_append, execAll] at h ⊢
    cases hi : exec i s with
    | next u => rw [hi] at h; exact ih h
    | fault r => rw [hi] at h; cases h
    | refused r => rw [hi] at h; cases h

/-- RENDER's sequence runs to RENDER's block, when the writes of the SETs that are kept fill the data region (R97). -/
theorem execAll_renderSequence {s : State} {n : Field} (value : Value) {keep : Nat → Bool} (hf : s.block.fault = 0)
    (hn : sideLegal n = true) (hfit : ((n.toNat + 1) * (n.toNat + 1) + 7) / 8 ≤ s.block.storeBytes)
    (hfill : (s.block.newImage (n + 1) (n + 1)).writes (keptFill n.toNat value keep) = s.block.dataImage value n) :
    ∃ u, execAll (renderSequence n value keep) s = .next u ∧ u.block = s.block.rendered n value := by
  have hside := toNat_succ_of_sideLegal hn
  have hwrites := map_cellWriteOf_setOperands value (sideLegal_iff.mp hn).2 keep
  have hne : n + 1 ≠ 0 := fun h0 => absurd (h0 ▸ hside) (Nat.succ_ne_zero _).symm
  have hfit' : ((n + 1).toNat * (n + 1).toNat + 7) / 8 ≤ s.block.storeBytes := by rwa [hside]
  have hin : ∀ x ∈ ((List.range (n.toNat * n.toNat)).filter keep).map (setOperands n.toNat value),
      x.1.toNat < (n + 1).toNat ∧ x.2.1.toNat < (n + 1).toNat := fun x hx => by
    have hlt : x.1.toNat < n.toNat ∧ x.2.1.toNat < n.toNat :=
      keptFill_lt (hwrites ▸ List.mem_map_of_mem (f := cellWriteOf) hx)
    omega
  obtain ⟨t, hrun, ⟨htf, htv, htr⟩, hblock⟩ := execAll_set _ (hasImage_newImage hf hfit' (okResponse 0 0 0)) hin
  rw [answered_block, hwrites, hfill] at hblock
  have hb : HasBarcode t := ⟨htf, hblock ▸ isBarcode_dataImage s.block value hn, htr⟩
  have hsets := (execAll_cons _ (exec_create_ok hf hne hne hfit')).trans hrun
  refine ⟨answered t t.block.drawExpected (rspWord 0 0 0 0), ?_, congrArg drawExpected hblock⟩
  rw [renderSequence_eq, execAll_append hsets, execAll_cons _ (exec_csRend_drawExpected hb), execAll]

/-- Settles O41: all SETs together are the fill, and so are those of the 1 bits, since CREATE has cleared the cells. -/
theorem renderEqualsItsSequence : Obligations.RenderEqualsItsSequence := by
  intro s t n hinv hf h hok
  obtain ⟨hn, hblock⟩ := rendered_of_exec_ok hf h hok
  have hfit := fits_of_exec_render_ok hf h hok
  rw [hblock]
  refine ⟨execAll_renderSequence s.wdata hf hn hfit ?_, execAll_renderSequence s.wdata hf hn hfit ?_⟩
  · rw [keptFill_all, dataImage_eq_writes]
  · rw [keptFill_ones, dataImage_eq_writes_ones s.block s.wdata hinv.canonical hn hfit]

end Sys2Proof.Machine
end

section
/-! VALIDATE from its verdict to its answer (R100, R107, R117), and the answers Valid and CONSTR_SHAPE (R110, R112, R118). -/

namespace Sys2Proof.Machine

variable {s : State}

section Answers

variable (hb : HasBarcode s)
include hb

theorem exec_validate_corrected {c r : Nat} (hd : s.block.diagnose = .corrected c r) :
    exec .validate s = .next (answered s (s.block.cellInvert c r) (rspWord 0 c r 1)) := by
  have hsize := Block.size_le hb.2.1
  obtain ⟨hc, hr⟩ := Block.diagnose_corrected_le hd
  rw [exec_validate_ok hb, hd, flip_corrected, verdictResponse_corrected (by omega) (by omega)]

theorem exec_validate_uncorrectable (hd : s.block.diagnose = .uncorrectable) :
    exec .validate s = .next (answered s s.block (rspWord 0 0 0 2)) := by
  rw [exec_validate_ok hb, hd, flip_uncorrectable, verdictResponse_uncorrectable]

end Answers

/-- Settles O43: a correction inverts the cell it names, which lies in the image; the other verdicts leave the block. -/
theorem validateWritesAtMostOneCell : Obligations.ValidateWritesAtMostOneCell := by
  intro s hb
  have ⟨hf, hbarcode, _⟩ := hb
  cases hd : s.block.diagnose with
  | valid =>
    exact ⟨s.block, rspWord 0 0 0 0, by rw [exec_validate_ok hb, hd, flip_valid_outcome, verdictResponse_valid], hbarcode.1,
      rfl, rfl, hf, rfl, .inl ⟨rfl, rfl⟩⟩
  | uncorrectable =>
    exact ⟨s.block, rspWord 0 0 0 2, exec_validate_uncorrectable hb hd, hbarcode.1, rfl, rfl, hf, rfl, .inr (.inl ⟨rfl, rfl⟩)⟩
  | corrected c r =>
    obtain ⟨hw, hh⟩ := Block.width_eq hbarcode
    obtain ⟨hc, hr⟩ := Block.diagnose_corrected_le hd
    have hcw : c < s.block.w.toNat := by omega
    refine ⟨s.block.cellInvert c r, rspWord 0 c r 1, exec_validate_corrected hb hd, hbarcode.1, rfl, rfl, hf, rfl,
      .inr (.inr ⟨c, r, hcw, by omega, rfl, ?_, fun c' r' hc' _ hne => ?_, fun a ha => ?_⟩)⟩
    · exact Block.cellRead_cellWrite_same _ _ _ _ hcw
    · exact Block.cellRead_cellWrite_other _ _ hcw hc' hne
    · exact Block.read?_cellWrite_other _ _ _ _ ha

theorem verdictCode_ne_three (v : Verdict) : v.code ≠ 3 := by cases v <;> simp [Verdict.code]

/-- Every verdict is answered with status OK and one of the three outcome codes (R52). -/
theorem verdictResponse_form (v : Verdict) :
    (verdictResponse v).extractLsb' 28 4 = 0 ∧ (verdictResponse v).extractLsb' 10 2 ≠ 3 := by
  cases v with
  | valid | corrected | uncorrectable =>
    refine ⟨status_okResponse .., ?_⟩
    rw [verdictResponse, okResponse, rc_packResponse]
    exact verdictCode_ne_three _

/-- Settles O44: the shape check is the only one that can fail, and every verdict has an OK response. -/
theorem validateNeverFaultsOnContent : Obligations.ValidateNeverFaultsOnContent := by
  intro s hf hv hread
  constructor
  · intro hbarcode
    exact ⟨_, reply_of_exec (exec_validate_ok ⟨hf, hbarcode, hread⟩), verdictResponse_form _⟩
  · intro hshape
    exact reply_of_exec (withBarcode_shape hf hv hshape)

/-- Settles O45, by induction on the number of VALIDATEs: each answers Valid and leaves the block. -/
theorem validStaysValid : Obligations.ValidStaysValid := by
  intro s k hb hborder
  induction k generalizing s with
  | zero => rfl
  | succ k ih =>
    rw [List.replicate_succ, execAll_cons _ (exec_validate_borderAgrees hb hborder), ih (answered s s.block _) hb hborder,
      List.replicate_succ', List.append_assoc]
    rfl

/-- Settles O47: both commands leave a readable image with the checksum of its data. -/
theorem validAfterDrawing : Obligations.ValidAfterDrawing := by
  constructor
  · intro s t hb hexec
    have hborder := readInvertsDraw.2 s t hb hexec
    rw [exec_csRend_drawExpected hb, Block.drawExpected, Block.drawTriple, Block.drawChecksum_eq_writes] at hexec
    cases hexec
    exact reply_of_exec (exec_validate_borderAgrees (hasBarcode_writes hb _ _) hborder)
  · intro s t n hf hexec hok
    exact reply_of_exec (renderedImageIsValid s t n hf hexec hok).2

end Sys2Proof.Machine
end

section
/-! When the decision table names no cell, and when the test of step 2 passes, by the syndromes and the match (R101, R106). -/

namespace Sys2Proof.Machine

theorem correctionTarget_eq_none_iff {n : Nat} {cErr rErr : Field} {m : Bool} :
    correctionTarget n cErr rErr m = none ↔
      ¬(popcount8 cErr = 1 ∧ popcount8 rErr = 1 ∧ m = true) ∧ ¬(popcount8 cErr = 1 ∧ popcount8 rErr = 0 ∧ m = false) ∧
      ¬(popcount8 cErr = 0 ∧ popcount8 rErr = 1 ∧ m = false) ∧ ¬(popcount8 cErr = 0 ∧ popcount8 rErr = 0 ∧ m = false) := by
  rw [correctionTarget]
  split_ifs <;> simp_all

theorem Checksum.eq_of_fields {x y : Checksum} (hlc : x.lc = y.lc) (hlr : x.lr = y.lr) (hbit : x.bit = y.bit) : x = y := by
  cases x
  cases y
  simp_all

namespace Block

variable {b : Block}

/-- The border agrees with the data exactly when both syndromes are 0 and the bit matches: with equal labels the expected bit is
the reference bit (R101, R109). -/
theorem borderAgrees_iff : b.BorderAgrees ↔ b.cErr = 0 ∧ b.rErr = 0 ∧ b.bitMatches = true := by
  have hlabels : b.cErr = 0 ∧ b.rErr = 0 ↔
      b.readChecksum.lc = b.computeChecksum.lc ∧ b.readChecksum.lr = b.computeChecksum.lr :=
    and_congr BitVec.xor_eq_zero_iff BitVec.xor_eq_zero_iff
  rw [← and_assoc, hlabels, bitMatches_iff]
  constructor
  · intro h
    exact ⟨⟨congrArg Checksum.lc h, congrArg Checksum.lr h⟩, by rw [h]; rfl⟩
  · rintro ⟨⟨hlc, hlr⟩, hbit⟩
    rw [hlc, hlr] at hbit
    exact Checksum.eq_of_fields hlc hlr hbit

end Block

end Sys2Proof.Machine
end

section
/-! VALIDATE on every image: the rows of the table, and the combinations that can reach it (R106, R108, R109). -/

namespace Sys2Proof.Machine

open Block

/-- Settles O42: one-hot syndromes select the row that names their cell, and syndromes of any other form select none. -/
theorem validateFollowsTheTable : Obligations.ValidateFollowsTheTable := by
  intro s hb o e cErr rErr m n
  have hmatch : s.block.bitMatches = true ↔ m := bitMatches_iff
  have hmismatch : s.block.bitMatches = false ↔ ¬m := by rw [← hmatch, Bool.not_eq_true]
  have hcorrected (hne : o ≠ e) {c r : Nat} (ht : correctionTarget n cErr rErr s.block.bitMatches = some (c, r)) :
      exec .validate s = .next (answered s (s.block.cellInvert c r) (rspWord 0 c r 1)) :=
    exec_validate_corrected hb (diagnose_corrected hne ht)
  refine ⟨exec_validate_borderAgrees hb, fun hne => ⟨?T1, ?T2, ?T3, ?T4, ?none⟩⟩
  case T1 =>
    intro x hx y hy hc hr hm
    exact hcorrected hne (by rw [hc, hr, hmatch.mpr hm, correctionTarget_dataCell n hx hy])
  case T2 =>
    intro y hy hc hr hm
    exact hcorrected hne (by rw [hc, hr, hmismatch.mpr hm, correctionTarget_checksumColumn n hy])
  case T3 =>
    intro x hx hc hr hm
    exact hcorrected hne (by rw [hc, hr, hmismatch.mpr hm, correctionTarget_checksumRow n hx])
  case T4 =>
    intro hc hr hm
    exact hcorrected hne (by rw [hc, hr, hmismatch.mpr hm, correctionTarget_corner n])
  case none =>
    intro h1 h2 h3 h4
    refine exec_validate_uncorrectable hb (diagnose_uncorrectable hne (correctionTarget_eq_none_iff.mpr ?_))
    rw [popcount8_eq_one, popcount8_eq_one, popcount8_eq_zero, popcount8_eq_zero, hmatch, hmismatch]
    exact ⟨h1, h2, h3, h4⟩

/-- The parity of one label is that of another plus the number of bits in which they differ (R109). -/
theorem popcount8_xor_mod_two (a b : Field) : popcount8 a % 2 = (popcount8 b + popcount8 (a ^^^ b)) % 2 := by
  rw [Nat.add_mod, popcount8_mod_two, popcount8_mod_two, popcount8_mod_two, labelParity_xor]
  cases labelParity a <;> cases labelParity b <;> rfl

theorem combinedParity_eq_mismatched_iff {a b : Field} :
    combinedParity a b = .mismatched ↔ popcount8 a % 2 ≠ popcount8 b % 2 := by
  rw [combinedParity]
  split_ifs <;> simp_all

/-- A barcode image whose data cell (1, 1) and corner are inverted (V16). -/
def dataCellAndCorner : State where
  block := { valid := true, w := 4, h := 4, fault := 0, store := [(0, 0xE5), (1, 0x76)], storeBytes := 11 }
  wdata := 0
  pending := []
  responses := []

/-- On it both counts are 1 and the bit does not match, and VALIDATE answers Uncorrectable (R109). -/
theorem dataCellAndCorner_unmatched :
    HasBarcode dataCellAndCorner ∧
    popcount8 (dataCellAndCorner.block.readChecksum.lc ^^^ dataCellAndCorner.block.computeChecksum.lc) = 1 ∧
    popcount8 (dataCellAndCorner.block.readChecksum.lr ^^^ dataCellAndCorner.block.computeChecksum.lr) = 1 ∧
    dataCellAndCorner.block.readChecksum.bit ≠
      combinedParity dataCellAndCorner.block.readChecksum.lc dataCellAndCorner.block.readChecksum.lr ∧
    reply .validate dataCellAndCorner = some (rspWord 0 0 0 2) := by decide +kernel

/-- Settles O48: the two computed labels have one parity, so the counts decide whether the observed ones differ in parity, and no
cell value is `Mismatched`. -/
theorem syndromeCombinations : Obligations.SyndromeCombinations := by
  refine ⟨fun b hb => ?_, dataCellAndCorner, dataCellAndCorner_unmatched⟩
  intro o e cCnt rCnt ref
  have hsize := size_le hb
  have hdata : popcount8 e.lc % 2 = popcount8 e.lr % 2 := by
    rw [popcount8_mod_two, popcount8_mod_two, labelParity_computeChecksum_lc hsize, labelParity_computeChecksum_lr hsize]
  have hlc : popcount8 o.lc % 2 = (popcount8 e.lc + cCnt) % 2 := popcount8_xor_mod_two _ _
  have hlr : popcount8 o.lr % 2 = (popcount8 e.lr + rCnt) % 2 := popcount8_xor_mod_two _ _
  have href : ref = .mismatched ↔ cCnt % 2 ≠ rCnt % 2 := by
    rw [combinedParity_eq_mismatched_iff]
    omega
  have hunmatched (hcounts : cCnt % 2 ≠ rCnt % 2) : o.bit ≠ ref := by
    rw [href.mpr hcounts]
    exact tri_ne_mismatched _
  refine ⟨hdata, hlc, hlr, href, ?_, ?_, ?_⟩
  · rintro ⟨hc, hr, hbit⟩
    exact hunmatched (by omega) hbit
  · rintro ⟨hc, hr, hbit⟩
    exact hunmatched (by omega) hbit
  · rintro hne ⟨hc, hr, hbit⟩
    exact hne (borderAgrees_iff.mpr
      ⟨(popcount8_eq_zero _).mp hc, (popcount8_eq_zero _).mp hr, bitMatches_iff.mpr hbit⟩)

end Sys2Proof.Machine
end

section
/-! VALIDATE sees of an image only which of its lines, border cell included, hold an odd number of ones: the data rows and columns
make the syndromes (R102), the checksum row and column the match (R105). An inverted cell changes one row and one column. -/

namespace Sys2Proof.Machine

/-- The last input of a parity tree, taken out. -/
theorem parityOf_range_succ (n : Nat) (f : Nat → Bool) :
    parityOf ((List.range (n + 1)).map f) = Bool.xor (f n) (parityOf ((List.range n).map f)) := by
  simp [List.range_succ, parityOf_append, Bool.xor_comm]

theorem xor_decide (p q : Prop) [Decidable p] [Decidable q] : Bool.xor (decide p) (decide q) = decide (¬(p ↔ q)) := by
  by_cases hp : p <;> by_cases hq : q <;> simp [hp, hq]

/-- A cell value is the combined bit of two labels when it is the parity of both (R78). -/
theorem tri_eq_combinedParity_iff (v : Bool) (lc lr : Field) :
    tri v = combinedParity lc lr ↔ v = labelParity lc ∧ v = labelParity lr := by
  rw [combinedParity_eq]
  cases v <;> cases labelParity lc <;> cases labelParity lr <;> decide

theorem popcount8_labelOf_pos {n : Nat} (hn : n ≤ 8) {f : Nat → Bool} {i : Nat} (hi : i < n) (hf : f i = true) :
    0 < popcount8 (labelOf n f) := by
  rw [popcount8_labelOf hn]
  exact Finset.sum_pos' (fun _ _ => Nat.zero_le _) ⟨i, Finset.mem_range.mpr hi, by simp [hf]⟩

theorem one_lt_popcount8_labelOf {n : Nat} (hn : n ≤ 8) {f : Nat → Bool} {i j : Nat} (hi : i < n) (hj : j < n) (hij : i ≠ j)
    (hfi : f i = true) (hfj : f j = true) : 1 < popcount8 (labelOf n f) := by
  have hpair : ∑ k ∈ {i, j}, (f k).toNat = 2 := by rw [Finset.sum_pair hij, hfi, hfj]; rfl
  have hsub : ({i, j} : Finset Nat) ⊆ Finset.range n := by simp [Finset.insert_subset_iff, hi, hj]
  rw [popcount8_labelOf hn]
  exact hpair.ge.trans (Finset.sum_le_sum_of_subset hsub)

namespace Block

/-- Row `i` with its cell of the checksum column holds an odd number of ones. -/
def rowOdd (b : Block) (i : Nat) : Bool := parityOf ((List.range (b.size + 1)).map fun j => b.cellRead j i)

/-- Column `i` with its cell of the checksum row holds an odd number of ones. -/
def colOdd (b : Block) (i : Nat) : Bool := parityOf ((List.range (b.size + 1)).map fun j => b.cellRead i j)

variable {b : Block}

theorem rowOdd_eq (b : Block) (i : Nat) : b.rowOdd i = Bool.xor (b.cellRead b.size i) (b.rowPar i) := parityOf_range_succ _ _

theorem colOdd_eq (b : Block) (i : Nat) : b.colOdd i = Bool.xor (b.cellRead i b.size) (b.colPar i) := parityOf_range_succ _ _

theorem cErr_eq_labelOf (b : Block) : b.cErr = labelOf b.size b.rowOdd := by
  rw [cErr, lc_readChecksum, lc_computeChecksum, labelOf_xor]
  exact labelOf_congr fun i _ => (rowOdd_eq b i).symm

theorem rErr_eq_labelOf (b : Block) : b.rErr = labelOf b.size b.colOdd := by
  rw [rErr, lr_readChecksum, lr_computeChecksum, labelOf_xor]
  exact labelOf_congr fun i _ => (colOdd_eq b i).symm

/-- The match of the table: the checksum row and the checksum column are even (R104, R105). -/
theorem bitMatches_iff_even (hsize : b.size ≤ 8) :
    b.bitMatches = true ↔ b.rowOdd b.size = false ∧ b.colOdd b.size = false := by
  have hlc : labelParity b.readChecksum.lc = b.colPar b.size := by
    rw [lc_readChecksum, labelParity_labelOf hsize, colPar]
  have hlr : labelParity b.readChecksum.lr = b.rowPar b.size := by
    rw [lr_readChecksum, labelParity_labelOf hsize, rowPar]
  rw [bitMatches_iff]
  refine (tri_eq_combinedParity_iff (b.cellRead b.size b.size) _ _).trans ?_
  simp [hlc, hlr, rowOdd_eq, colOdd_eq, and_comm]

/-! ## Inverted cells -/

section Inverted

variable (hb : b.IsBarcode) {x y i : Nat} (hx : x ≤ b.size) (hi : i ≤ b.size)
include hb hx

theorem rowOdd_cellInvert : (b.cellInvert x y).rowOdd i = Bool.xor (b.rowOdd i) (decide (i = y)) := by
  have hcells : ∀ j ∈ List.range (b.size + 1),
      (b.cellInvert x y).cellRead j i = Bool.xor (b.cellRead j i) (decide (j = x ∧ i = y)) := fun j hj =>
    cellRead_cellInvert_of_le hb hx (Nat.le_of_lt_succ (List.mem_range.mp hj)) i
  rw [rowOdd, cellInvert_size, List.map_congr_left hcells]
  exact parityOf_map_flip (Nat.lt_succ_of_le hx) _ _

include hi

theorem colOdd_cellInvert (hy : y ≤ b.size) : (b.cellInvert x y).colOdd i = Bool.xor (b.colOdd i) (decide (i = x)) := by
  have hcells : ∀ j ∈ List.range (b.size + 1),
      (b.cellInvert x y).cellRead i j = Bool.xor (b.cellRead i j) (decide (j = y ∧ i = x)) := fun j _ => by
    simp only [cellRead_cellInvert_of_le hb hx hi, and_comm]
  rw [colOdd, cellInvert_size, List.map_congr_left hcells]
  exact parityOf_map_flip (Nat.lt_succ_of_le hy) _ _

end Inverted

/-- In an image that carries its checksum every line is even (R101). -/
theorem lines_even (hsize : b.size ≤ 8) (hborder : b.BorderAgrees) {i : Nat} (hi : i ≤ b.size) :
    b.rowOdd i = false ∧ b.colOdd i = false := by
  obtain ⟨hc, hr, hm⟩ := borderAgrees_iff.mp hborder
  rcases Nat.lt_or_eq_of_le hi with hdata | rfl
  · have hrow := getLsbD_labelOf b.size b.rowOdd (i := i) (by omega)
    have hcol := getLsbD_labelOf b.size b.colOdd (i := i) (by omega)
    rw [← cErr_eq_labelOf, hc] at hrow
    rw [← rErr_eq_labelOf, hr] at hcol
    simpa [hdata] using And.intro hrow.symm hcol.symm
  · exact (bitMatches_iff_even hsize).mp hm

/-! ## The verdict from the odd lines -/

/-- The odd data row and the odd data column, none where the cell is in the border, name the cell (R103, R106). -/
theorem diagnose_eq_corrected {x y : Nat} (hsize : b.size ≤ 8) (hx : x ≤ b.size) (hy : y ≤ b.size)
    (hrow : ∀ i < b.size, b.rowOdd i = true ↔ i = y) (hcol : ∀ i < b.size, b.colOdd i = true ↔ i = x)
    (hmatch : b.bitMatches = true ↔ x < b.size ∧ y < b.size) : b.diagnose = .corrected x y := by
  have hc : b.cErr = labelOf b.size fun i => decide (i = y) := by
    rw [cErr_eq_labelOf]
    exact labelOf_congr fun i hi => Bool.eq_iff_iff.mpr (by simp [hrow i hi])
  have hr : b.rErr = labelOf b.size fun i => decide (i = x) := by
    rw [rErr_eq_labelOf]
    exact labelOf_congr fun i hi => Bool.eq_iff_iff.mpr (by simp [hcol i hi])
  have hm : b.bitMatches = decide (x < b.size ∧ y < b.size) := Bool.eq_iff_iff.mpr (by simp [hmatch])
  have ht : correctionTarget b.size b.cErr b.rErr b.bitMatches = some (x, y) := by
    rw [hc, hr, hm]
    rcases Nat.lt_or_eq_of_le hx with hx | rfl <;> rcases Nat.lt_or_eq_of_le hy with hy | rfl
    · rw [labelOf_indicator hx, labelOf_indicator hy, decide_eq_true ⟨hx, hy⟩]
      exact correctionTarget_dataCell _ (by omega) (by omega)
    · rw [labelOf_indicator hx, labelOf_indicator_of_le (le_refl _), decide_eq_false (by omega)]
      exact correctionTarget_checksumRow _ (by omega)
    · rw [labelOf_indicator hy, labelOf_indicator_of_le (le_refl _), decide_eq_false (by omega)]
      exact correctionTarget_checksumColumn _ (by omega)
    · rw [labelOf_indicator_of_le (le_refl _), decide_eq_false (by omega)]
      exact correctionTarget_corner _
  refine diagnose_corrected (fun h => ?_) ht
  obtain ⟨hc0, hr0, hm⟩ := borderAgrees_iff.mp h
  rw [hc0, hr0, hm] at ht
  cases ht

/-- Two odd data rows, two odd data columns, or one of each with the bit not matching, are in no row of the table (R106). -/
theorem diagnose_eq_uncorrectable (h : 1 < popcount8 b.cErr ∨ 1 < popcount8 b.rErr ∨
    (0 < popcount8 b.cErr ∧ 0 < popcount8 b.rErr ∧ b.bitMatches = false)) : b.diagnose = .uncorrectable := by
  have hne : ¬b.BorderAgrees := by
    intro hborder
    obtain ⟨hc, hr, -⟩ := borderAgrees_iff.mp hborder
    rw [hc, hr, popcount8_zero] at h
    omega
  refine diagnose_uncorrectable hne (correctionTarget_eq_none_iff.mpr ?_)
  rcases h with h | h | ⟨hc, hr, hm⟩
  · omega
  · omega
  · rw [hm]
    simp
    omega

end Block

end Sys2Proof.Machine
end

section
/-! One and two inverted cells of an image that carries its checksum (R111, R114, R115). -/

namespace Sys2Proof.Machine

namespace Block

variable {b : Block} (hb : b.IsBarcode) (hborder : b.BorderAgrees)
include hb hborder

/-- The one odd row and the one odd column cross in the inverted cell (R111). -/
theorem diagnose_cellInvert {x y : Nat} (hx : x ≤ b.size) (hy : y ≤ b.size) :
    (b.cellInvert x y).diagnose = .corrected x y := by
  have hsize := size_le hb
  have hrow {i : Nat} (hi : i ≤ b.size) : (b.cellInvert x y).rowOdd i = decide (i = y) := by
    rw [rowOdd_cellInvert hb hx, (lines_even hsize hborder hi).1, Bool.false_xor]
  have hcol {i : Nat} (hi : i ≤ b.size) : (b.cellInvert x y).colOdd i = decide (i = x) := by
    rw [colOdd_cellInvert hb hx hi hy, (lines_even hsize hborder hi).2, Bool.false_xor]
  refine diagnose_eq_corrected (b := b.cellInvert x y) hsize hx hy (fun i hi => ?_) (fun i hi => ?_) ?_
  · rw [hrow (Nat.le_of_lt hi), decide_eq_true_iff]
  · rw [hcol (Nat.le_of_lt hi), decide_eq_true_iff]
  · rw [bitMatches_iff_even (b := b.cellInvert x y) hsize, cellInvert_size, hrow le_rfl, hcol le_rfl,
      decide_eq_false_iff_not, decide_eq_false_iff_not]
    omega

section Twice

variable {c₁ r₁ c₂ r₂ : Nat} (hc₁ : c₁ ≤ b.size) (hr₁ : r₁ ≤ b.size) (hc₂ : c₂ ≤ b.size) (hr₂ : r₂ ≤ b.size)
include hc₁ hc₂

theorem rowOdd_cellInvert_twice {i : Nat} (hi : i ≤ b.size) :
    ((b.cellInvert c₁ r₁).cellInvert c₂ r₂).rowOdd i = true ↔ ¬(i = r₁ ↔ i = r₂) := by
  rw [rowOdd_cellInvert (b := b.cellInvert c₁ r₁) hb hc₂, rowOdd_cellInvert hb hc₁,
    (lines_even (size_le hb) hborder hi).1, Bool.false_xor, xor_decide, decide_eq_true_iff]

include hr₁ hr₂

theorem colOdd_cellInvert_twice {i : Nat} (hi : i ≤ b.size) :
    ((b.cellInvert c₁ r₁).cellInvert c₂ r₂).colOdd i = true ↔ ¬(i = c₁ ↔ i = c₂) := by
  rw [colOdd_cellInvert (b := b.cellInvert c₁ r₁) hb hc₂ hi hr₂, colOdd_cellInvert hb hc₁ hi hr₁,
    (lines_even (size_le hb) hborder hi).2, Bool.false_xor, xor_decide, decide_eq_true_iff]

theorem bitMatches_cellInvert_twice :
    ((b.cellInvert c₁ r₁).cellInvert c₂ r₂).bitMatches = true ↔
      (b.size = r₁ ↔ b.size = r₂) ∧ (b.size = c₁ ↔ b.size = c₂) := by
  have hrow := rowOdd_cellInvert_twice hb hborder (r₁ := r₁) (r₂ := r₂) hc₁ hc₂ le_rfl
  have hcol := colOdd_cellInvert_twice hb hborder hc₁ hr₁ hc₂ hr₂ le_rfl
  rw [bitMatches_iff_even (b := (b.cellInvert c₁ r₁).cellInvert c₂ r₂) (size_le hb), cellInvert_size, cellInvert_size,
    ← Bool.not_eq_true, ← Bool.not_eq_true, hrow, hcol, not_not, not_not]

/-- The verdict on two inverted cells, from the data lines they leave odd and whether the bit matches (R106, R115). -/
theorem diagnose_twice_corrected {x y : Nat} (hx : x ≤ b.size) (hy : y ≤ b.size)
    (hrow : ∀ i < b.size, ¬(i = r₁ ↔ i = r₂) ↔ i = y) (hcol : ∀ i < b.size, ¬(i = c₁ ↔ i = c₂) ↔ i = x)
    (hmatch : (b.size = r₁ ↔ b.size = r₂) ∧ (b.size = c₁ ↔ b.size = c₂) ↔ x < b.size ∧ y < b.size) :
    ((b.cellInvert c₁ r₁).cellInvert c₂ r₂).diagnose = .corrected x y := by
  exact diagnose_eq_corrected (b := (b.cellInvert c₁ r₁).cellInvert c₂ r₂) (size_le hb) hx hy
    (fun i hi => (rowOdd_cellInvert_twice hb hborder hc₁ hc₂ (Nat.le_of_lt hi)).trans (hrow i hi))
    (fun i hi => (colOdd_cellInvert_twice hb hborder hc₁ hr₁ hc₂ hr₂ (Nat.le_of_lt hi)).trans (hcol i hi))
    ((bitMatches_cellInvert_twice hb hborder hc₁ hr₁ hc₂ hr₂).trans hmatch)

/-- Two errors are reported when they lie in different data rows or in different data columns, or when one data row and one data
column are odd and the border line that one error lies in is odd too (R114). -/
theorem diagnose_twice_uncorrectable
    (hkind : (r₁ < b.size ∧ r₂ < b.size ∧ r₁ ≠ r₂) ∨ (c₁ < b.size ∧ c₂ < b.size ∧ c₁ ≠ c₂) ∨
      (r₁ < b.size ∧ r₂ = b.size ∧ (c₁ < b.size ∧ c₂ = b.size ∨ c₁ = b.size ∧ c₂ < b.size))) :
    ((b.cellInvert c₁ r₁).cellInvert c₂ r₂).diagnose = .uncorrectable := by
  have hsize := size_le hb
  have hrow {i : Nat} (hi : i < b.size) (h : ¬(i = r₁ ↔ i = r₂)) :
      ((b.cellInvert c₁ r₁).cellInvert c₂ r₂).rowOdd i = true :=
    (rowOdd_cellInvert_twice hb hborder hc₁ hc₂ hi.le).mpr h
  have hcol {i : Nat} (hi : i < b.size) (h : ¬(i = c₁ ↔ i = c₂)) :
      ((b.cellInvert c₁ r₁).cellInvert c₂ r₂).colOdd i = true :=
    (colOdd_cellInvert_twice hb hborder hc₁ hr₁ hc₂ hr₂ hi.le).mpr h
  apply diagnose_eq_uncorrectable
  rw [cErr_eq_labelOf, rErr_eq_labelOf, ← Bool.not_eq_true, bitMatches_cellInvert_twice hb hborder hc₁ hr₁ hc₂ hr₂]
  simp only [cellInvert_size]
  rcases hkind with ⟨h₁, h₂, hne⟩ | ⟨h₁, h₂, hne⟩ | ⟨h₁, h₂, hc⟩
  · exact .inl (one_lt_popcount8_labelOf hsize h₁ h₂ hne (hrow h₁ (by omega)) (hrow h₂ (by omega)))
  · exact .inr (.inl (one_lt_popcount8_labelOf hsize h₁ h₂ hne (hcol h₁ (by omega)) (hcol h₂ (by omega))))
  · refine .inr (.inr ⟨popcount8_labelOf_pos hsize h₁ (hrow h₁ (by omega)), ?_, by omega⟩)
    rcases hc with ⟨h, h'⟩ | ⟨h, h'⟩
    · exact popcount8_labelOf_pos hsize h (hcol h (by omega))
    · exact popcount8_labelOf_pos hsize h' (hcol h' (by omega))

end Twice

end Block

open Block

/-- Settles O46: the verdict names the inverted cell, and inverting it again restores the block. -/
theorem singleErrorCorrection : Obligations.SingleErrorCorrection := by
  intro s x y hinv hf hbarcode hborder hx hy
  have hread := readable_of_inv hinv hbarcode.1
  obtain ⟨hw, hh⟩ := width_eq hbarcode
  have hd := diagnose_cellInvert hbarcode hborder (x := x.toNat) (y := y.toNat) (by omega) (by omega)
  have hb : HasBarcode (answered s (s.block.cellInvert x.toNat y.toNat) (okResponse 0 0 0)) :=
    ⟨hf, hbarcode, readable_cellInvert hread _ _⟩
  refine ⟨_, _, exec_invert_ok ⟨hf, hbarcode.1, hread⟩ hx hy, exec_validate_corrected hb hd, rfl, ?_⟩
  exact cellInvert_cellInvert hinv.canonical hx (hread.2 _ (s.block.byteAddr_lt_usedBytes hx hy))

/-- VALIDATE may proceed on an image with two cells inverted. -/
theorem hasBarcode_cellInvert_twice {s t : State} (hb : HasBarcode s) {c₁ r₁ c₂ r₂ : Nat}
    (ht : t.block = (s.block.cellInvert c₁ r₁).cellInvert c₂ r₂) : HasBarcode t := by
  obtain ⟨hf, hbarcode, hread⟩ := hb
  rw [HasBarcode, ht]
  exact ⟨hf, hbarcode, readable_cellInvert (readable_cellInvert hread c₁ r₁) c₂ r₂⟩

/-- Settles O49: the seven kinds leave two data rows or two data columns odd, or one of each with the bit not matching. -/
theorem doubleErrorsReported : Obligations.DoubleErrorsReported := by
  intro s hb hborder n c₁ r₁ c₂ r₂ hne hkind t ht
  have hdistinct : ¬(c₁ = c₂ ∧ r₁ = r₂) := by simpa using hne
  refine exec_validate_uncorrectable (hasBarcode_cellInvert_twice hb ht) ?_
  rw [ht]
  exact diagnose_twice_uncorrectable hb.2.1 hborder (by omega) (by omega) (by omega) (by omega) (by omega)

/-- Settles O50: two errors in one data line leave it even, and an error of the corner only hides the match; the table then sees
one odd data line and takes its border cell for the error. -/
theorem doubleErrorsMiscorrected : Obligations.DoubleErrorsMiscorrected := by
  intro s x y hb hborder hx hy n
  have hcorrected {t : State} {c₁ r₁ c₂ r₂ c r : Nat} (ht : t.block = (s.block.cellInvert c₁ r₁).cellInvert c₂ r₂)
      (hd : ((s.block.cellInvert c₁ r₁).cellInvert c₂ r₂).diagnose = .corrected c r) :
      exec .validate t = .next (answered t (t.block.cellInvert c r) (rspWord 0 c r 1)) :=
    exec_validate_corrected (hasBarcode_cellInvert_twice hb ht) (ht ▸ hd)
  refine ⟨fun t ht => hcorrected ht ?_, fun t ht => hcorrected ht ?_, fun t ht => hcorrected ht ?_,
    fun t ht => hcorrected ht ?_⟩
  all_goals
    exact diagnose_twice_corrected hb.2.1 hborder (by omega) (by omega) (by omega) (by omega) (by omega) (by omega)
      (by omega) (by omega) (by omega)

end Sys2Proof.Machine
end

section
/-! What a command answers to a recorded fault (R127), with no image (R122), to a border bit that is no cell value (R125), and when
its image does not fit the store (R128). -/

namespace Sys2Proof.Machine

variable {s : State} {c r w h : Field}

/-- Settles O8: the check for a recorded fault answers in front of every command and of every illegal word. -/
theorem faultedBlockAnswersItsCause : Obligations.FaultedBlockAnswersItsCause :=
  fun _ _ _ _ hp hf => ⟨_, step_command_faulted hf hp, rfl, rfl⟩

theorem exec_create_tooLarge (hf : s.block.fault = 0) (hw : w ≠ 0) (hh : h ≠ 0)
    (hlarge : s.block.storeBytes < (w.toNat * h.toNat + 7) / 8) : exec (.create w h) s = allocErr s := by
  simp only [exec, execCreate]
  rw [unlessFaulted_clear hf, if_neg (not_or.mpr ⟨hw, hh⟩), tooLarge_iff.mpr hlarge]
  rfl

/-- Settles O16: with lawful operands only the capacity check is left to stop either command. -/
theorem allocErrChangesNothing : Obligations.AllocErrChangesNothing :=
  ⟨fun _ _ _ hf hw hh hlarge => (exec_create_tooLarge hf hw hh hlarge).trans (allocErr_eq _),
    fun _ _ hf h1 h8 hvalue hlarge => (exec_render_tooLarge hf h1 h8 hvalue hlarge).trans (allocErr_eq _)⟩

/-- The commands that need an image look for it before anything of their own (R59, R122). -/
theorem exec_eq_withImage {i : Instr} (hi : i.needsImage = true) (s : State) : ∃ k, exec i s = withImage s k := by
  cases i with
  | free | size | get | set | invert | csComp | csDraw | csRead | csRend | validate => exact ⟨_, rfl⟩
  | create | render => exact absurd hi (by simp [Instr.needsImage])

theorem exec_noImage {i : Instr} (hi : i.needsImage = true) (hf : s.block.fault = 0) (hv : s.block.valid = false) :
    exec i s = .next (answered s (s.block.withFault 2) (rspWord 2 2 0 0)) := by
  obtain ⟨k, hk⟩ := exec_eq_withImage hi s
  rw [hk, withImage_none hf hv]

theorem inBounds_eq_false_iff {b : Block} :
    inBounds b c r = false ↔ b.w.toNat ≤ c.toNat ∨ b.h.toNat ≤ r.toNat := by
  rw [← Bool.not_eq_true, inBounds_iff]
  omega

theorem exec_csDraw_mismatched (hf : s.block.fault = 0) (hb : s.block.IsBarcode) (lc lr : Field) :
    exec (.csDraw lc lr .mismatched) s = .next (answered s (s.block.withFault 8) (rspWord 2 8 0 0)) :=
  (withBarcode_ok hf hb).trans (raise_eq s .constrBit)

end Sys2Proof.Machine
end

section
/-! Which command records which cause, and when (R120 to R125): the converses of the equations above, from one walk through the
checks of each command. -/

namespace Sys2Proof.Machine

/-- The codes of R120 are 1 to 8 in the order of the causes, so a code gives its cause back. -/
theorem code_injective : Function.Injective Cause.code :=
  Function.LeftInverse.injective (g := fun code => Cause.ofNat (code.toNat - 1)) fun c => by cases c <;> rfl

theorem needsImage_of_needsBarcode {i : Instr} (hi : i.needsBarcode = true) : i.needsImage = true := by
  cases i with
  | csComp | csDraw | csRead | csRend | validate => rfl
  | create | free | size | get | set | invert | render => exact absurd hi (by simp [Instr.needsBarcode])

/-- The condition of each cause, by the command that is executed (R122 to R125); no command is illegal (R121). -/
def MayRecord (i : Instr) (s : State) : Cause → Prop
  | .illegalCmd => False
  | .noImage => i.needsImage = true ∧ s.block.valid = false
  | .bounds => ∃ c r : Field, inBounds s.block c r = false ∧ (i = .get c r ∨ (∃ v, i = .set c r v) ∨ i = .invert c r)
  | .constrDim => ∃ w h : Field, (w = 0 ∨ h = 0) ∧ i = .create w h
  | .constrSize => ∃ n, sideLegal n = false ∧ i = .render n
  | .constrValue => ∃ n, valueFits n s.wdata = false ∧ i = .render n
  | .constrShape => i.needsBarcode = true ∧ ¬s.block.IsBarcode
  | .constrBit => ∃ lc lr : Field, i = .csDraw lc lr .mismatched

/-- If the outcome is a next state, a cause recorded in it is one whose condition held. -/
def RecordsLawfully (i : Instr) (s : State) (o : Host.Outcome State Fault Refusal) : Prop :=
  ∀ t c, o = .next t → t.block.fault = Cause.code c → MayRecord i s c

namespace RecordsLawfully

variable {i : Instr} {s : State} {k : Host.Outcome State Fault Refusal}

theorem respond {b : Block} {rsp : Word} (hb : b.fault = 0) : RecordsLawfully i s (respond s b rsp) := by
  rintro t c ⟨⟩ hc
  exact absurd (hc.symm.trans hb) (code_ne_zero c)

theorem raise {c : Cause} (hc : MayRecord i s c) : RecordsLawfully i s (raise s c) := by
  rintro t c' ⟨⟩ hc'
  exact code_injective hc' ▸ hc

theorem withCells (hk : RecordsLawfully i s k) : RecordsLawfully i s (withCells s k) :=
  fun t c h => hk t c (withCells_next h).2

variable (hf : s.block.fault = 0)
include hf

theorem unlessFaulted (hk : RecordsLawfully i s k) : RecordsLawfully i s (unlessFaulted s k) := by
  rwa [unlessFaulted_clear hf]

theorem withImage (hi : i.needsImage = true) (hk : RecordsLawfully i s k) : RecordsLawfully i s (withImage s k) := by
  refine unlessFaulted hf ?_
  split_ifs with hv
  · exact hk
  · exact raise ⟨hi, Bool.eq_false_of_not_eq_true hv⟩

theorem atCell {c r : Field} (hi : i = .get c r ∨ (∃ v, i = .set c r v) ∨ i = .invert c r) (hk : RecordsLawfully i s k) :
    RecordsLawfully i s (atCell s c r k) := by
  have hneeds : i.needsImage = true := by
    obtain rfl | ⟨v, rfl⟩ | rfl := hi <;> rfl
  refine withImage hf hneeds ?_
  split_ifs with hin
  · exact withCells hk
  · exact raise ⟨c, r, Bool.eq_false_of_not_eq_true hin, hi⟩

theorem withBarcode (hi : i.needsBarcode = true) (hk : s.block.IsBarcode → RecordsLawfully i s k) :
    RecordsLawfully i s (withBarcode s k) := by
  refine withImage hf (needsImage_of_needsBarcode hi) ?_
  split_ifs with hb
  · exact hk hb
  · exact raise ⟨hi, hb⟩

/-- A command of a block without a fault records a cause only on its condition. CSREND never draws `Mismatched` (R86). -/
theorem exec (i : Instr) : RecordsLawfully i s (exec i s) := by
  cases i with
  | create w h =>
    refine unlessFaulted hf ?_
    split_ifs with hzero
    · exact raise ⟨w, h, hzero, rfl⟩
    · exact respond hf
    · exact respond hf
  | free | size => exact withImage hf rfl (respond hf)
  | get c r => exact atCell hf (.inl rfl) (respond hf)
  | set c r v => exact atCell hf (.inr (.inl ⟨v, rfl⟩)) (respond hf)
  | invert c r => exact atCell hf (.inr (.inr rfl)) (respond hf)
  | csComp | csRead => exact withBarcode hf rfl fun _ => withCells (respond hf)
  | csDraw lc lr b =>
    refine withBarcode hf rfl fun _ => ?_
    split_ifs with hbit
    · exact raise ⟨lc, lr, by rw [hbit]⟩
    · exact withCells (respond ((Block.drawChecksum_fault ..).trans hf))
  | csRend =>
    refine withBarcode hf rfl fun hb => withCells ?_
    rw [if_neg (Block.computeChecksum_bit_ne_mismatched (Block.size_le hb))]
    exact respond ((Block.drawChecksum_fault ..).trans hf)
  | render n =>
    refine unlessFaulted hf ?_
    split_ifs with hside hvalue
    · exact raise ⟨n, Bool.not_eq_true' _ ▸ hside, rfl⟩
    · exact raise ⟨n, Bool.not_eq_true' _ ▸ hvalue, rfl⟩
    · exact respond hf
    · exact respond ((Block.rendered_fault ..).trans hf)
  | validate =>
    refine withBarcode hf rfl fun _ => withCells (respond ?_)
    cases s.block.diagnose with
    | valid | corrected | uncorrectable => exact hf

end RecordsLawfully

/-- Settles O10: the commands that need an image stop at their check for it, and no other check records NO_IMAGE. -/
theorem noImageFault : Obligations.NoImageFault := by
  intro i s hf
  have hnone (hi : i.needsImage = true) (hv : s.block.valid = false) := exec_noImage hi hf hv
  refine ⟨⟨?_, fun ⟨hi, hv⟩ => ⟨_, hnone hi hv, rfl⟩⟩, hnone⟩
  rintro ⟨t, h, hcause⟩
  exact RecordsLawfully.exec hf i t .noImage h hcause

/-- Settles O11: the three commands stop at their bounds check, and no other command has one. -/
theorem outOfBoundsFaults : Obligations.OutOfBoundsFaults := by
  constructor
  · intro s c r v hf hv hout
    have hb : inBounds s.block c r = false := inBounds_eq_false_iff.mpr hout
    exact ⟨atCell_out hf hv hb, atCell_out hf hv hb, atCell_out hf hv hb⟩
  · intro i s t h hf hcause
    obtain ⟨c, r, hb, hi⟩ := RecordsLawfully.exec hf i t .bounds h hcause
    exact ⟨c, r, inBounds_eq_false_iff.mp hb, hi⟩

/-- Settles O13: CSDRAW looks at its bit operand before any cell, and no other command can have `Mismatched` to draw. -/
theorem drawingMismatchedFaults : Obligations.DrawingMismatchedFaults :=
  ⟨fun _ lc lr hf hb => exec_csDraw_mismatched hf hb lc lr, fun i _ t h hf => RecordsLawfully.exec hf i t .constrBit h⟩

end Sys2Proof.Machine
end

section
/-! The replies of CSCOMP and CSREAD against that of VALIDATE (R144): a checksum can be recovered from its response, and an outcome
is Valid exactly when its response says so. -/

namespace Sys2Proof.Machine

@[simp] theorem rspRA_checksumResponse (cs : Checksum) : rspRA (checksumResponse cs) = cs.lc := ra_packResponse ..

@[simp] theorem rspRB_checksumResponse (cs : Checksum) : rspRB (checksumResponse cs) = cs.lr := rb_packResponse ..

@[simp] theorem rspRC_checksumResponse (cs : Checksum) : rspRC (checksumResponse cs) = cs.bit.code := rc_packResponse ..

theorem triCode_injective : Function.Injective Tri.code := fun a b h => by
  simpa only [Tri.ofCode?_code, Option.some_inj] using congrArg Tri.ofCode? h

theorem checksumResponse_injective : Function.Injective checksumResponse := by
  intro cs cs' h
  have hlc : cs.lc = cs'.lc := by simpa using congrArg rspRA h
  have hlr : cs.lr = cs'.lr := by simpa using congrArg rspRB h
  have hcode : cs.bit.code = cs'.bit.code := by simpa using congrArg rspRC h
  exact Checksum.eq_of_fields hlc hlr (triCode_injective hcode)

theorem Verdict.code_eq_zero_iff {v : Verdict} : v.code = 0 ↔ v = .valid := by cases v <;> simp [Verdict.code]

theorem rspRC_verdictResponse (v : Verdict) : rspRC (verdictResponse v) = v.code := by
  cases v with
  | valid | corrected | uncorrectable => exact rc_packResponse ..

theorem verdictResponse_eq_valid_iff {v : Verdict} : verdictResponse v = rspWord 0 0 0 0 ↔ v = .valid := by
  constructor
  · intro h
    rw [← verdictResponse_valid] at h
    have hcode := congrArg rspRC h
    rw [rspRC_verdictResponse, rspRC_verdictResponse] at hcode
    exact Verdict.code_eq_zero_iff.mp hcode
  · rintro rfl
    exact verdictResponse_valid

/-- The verdict is Valid by the comparison of step 2 only: the decision table names a cell or none (R101, R106). -/
theorem Block.diagnose_eq_valid_iff {b : Block} : b.diagnose = .valid ↔ b.BorderAgrees := by
  refine ⟨fun hd => ?_, diagnose_valid⟩
  by_contra hne
  cases ht : correctionTarget b.size b.cErr b.rErr b.bitMatches with
  | none => simp [diagnose_uncorrectable hne ht] at hd
  | some cell => simp [diagnose_corrected hne ht] at hd

/-- Settles O51: both sides say that the border agrees with the data. -/
theorem pureCheckEqualsValidate : Obligations.PureCheckEqualsValidate := by
  intro s hb
  rw [reply_of_exec (exec_csComp_ok hb), reply_of_exec (exec_csRead_ok hb), reply_of_exec (exec_validate_ok hb)]
  rw [Option.some_inj, Option.some_inj, checksumResponse_injective.eq_iff, verdictResponse_eq_valid_iff,
    Block.diagnose_eq_valid_iff]
  exact eq_comm

end Sys2Proof.Machine
end
